-- ==== Sys2Proof/Word.lean ====
section
/-! DEFINITION. The two plain bit-vector types of the block: a register or command word (R21, R100) and a byte of
system memory (R70). -/

namespace Sys2Proof

/-- A register value, a command word or an address: 32 bits (00_scope.md section 5). -/
abbrev Word := BitVec 32

/-- One byte of system memory (R70). -/
abbrev Byte := BitVec 8

end Sys2Proof
end

