-- ==== Sys2Proof/Config.lean ====
section
/-! DEFINITION. What the platform fixes (R6: REG_BASE, MEM_PRESENT) and the free values the spec leaves open
(R6: JOB_STEPS; X3, X6). A free value is an opaque constant: nothing can be proved of the value it gives. -/

namespace Sys2Proof

/-- A range of system memory, `[base, base + size)`. -/
structure Region where
  base : Nat
  size : Nat
deriving DecidableEq, Repr

/-- The platform's parameters (R6). They are constants of a run, held in State as plain data; no step changes them
(log 8). -/
structure Platform where
  /-- The upper 26 bits of REG_BASE: the window is 64-byte aligned (R21, D35). -/
  regBase : BitVec 26
  /-- The platform maps the register window into the same address space as system memory (R82). -/
  sharedSpace : Bool
  /-- The addresses at which no memory is present, MEM_PRESENT false (R72). -/
  absent : List Region
deriving DecidableEq, Repr

namespace Config

/-- FREE VALUE. One less than JOB_STEPS of the job with this draw number: the job takes `jobSteps d + 1` engine steps,
finite and at least 1 (R6, R167, R269; log 4). -/
opaque jobSteps : Nat → Nat

/-- FREE VALUE. Whether the job with this draw number reads, in this engine step, the source byte at this offset of this
channel (R75, R167: unspecified order; log 5). Arguments: draw, step, channel, byte offset. -/
opaque readNow : Nat → Nat → Nat → Nat → Bool

/-- FREE VALUE. Whether the job with this draw number writes, in this engine step, this byte of the output stream
(R75, R167: unspecified order; log 5). Arguments: draw, step, stream offset. -/
opaque writeNow : Nat → Nat → Nat → Bool

/-- FREE VALUE. How many host operations pass before this engine step of the job with this draw number: any finite
number, which is R269's weak fairness of the engine (log 3). Arguments: draw, step. -/
opaque hostBurst : Nat → Nat → Nat

/-- FREE VALUE. An unspecified byte (X6): of a job's destination after a race (R75) or after a reset during the job
(R261), or read by the host from a raced destination (log 6, 7). Arguments: draw, offset. -/
opaque freeByte : Nat → Nat → Byte

end Config

end Sys2Proof
end

