-- ==== Sys2Proof/Syntax.lean ====
section
/-! DEFINITION. The command words as instructions (one constructor per row of opcode_table.json), the names of a word's
illegality, the registers of the window, the host's operations (R110) and the assembler's notation (R110 to R112). -/

namespace Sys2Proof

/-- The commands of the block (R101). Every constructor carries the DEPTH and NCH fields of the word, those the operation
ignores (R106) too, so that an instruction determines its word and CMD reads back (R24, R113). -/
inductive Instr where
  /-- OP 0x0 (R200). -/
  | nop (depth nch : Byte)
  /-- OP 0x1 (R166). -/
  | encode (depth nch : Byte)
  /-- OP 0x2 (R140). -/
  | quant (depth nch : Byte)
  /-- OP 0x3 (R201). -/
  | clear (depth nch : Byte)
deriving DecidableEq, Repr

/-- Why a word is illegal (R104). The block reports all three alike, as IllegalCommand; the names are the decoder's. -/
inductive IllegalWord where
  /-- A bit of RSV0, bits [7:4], is set. -/
  | rsv0
  /-- A bit of RSV1, bits [31:24], is set. -/
  | rsv1
  /-- OP is 0x4 to 0xF. -/
  | reservedOp
deriving DecidableEq, Repr

/-- The sixteen word registers of the window (R21), the reserved one at 0x3C among them. -/
inductive Reg where
  | id | ctrl | cmd | status | src0 | src1 | len0 | len1
  | dst | dstCap | outFmt | outLen | rate | qin | qout | reserved
deriving DecidableEq, Repr

/-- The width of a host access to the register window. Only `word` accesses are defined (R21, X4). -/
inductive AccessSize where
  | byte | half | word | double
deriving DecidableEq, Repr

/-- A host operation (R110, R270), as the block sees it: register accesses by their width and their offset in the 64-byte
window, memory accesses by their address. -/
inductive HostOp where
  /-- `WR`: write `v` to the window. -/
  | wr (size : AccessSize) (offset : BitVec 6) (v : Word)
  /-- `RD`: read the window; the value is named t<t>. -/
  | rd (size : AccessSize) (offset : BitVec 6) (t : Nat)
  /-- `POLL`: read until `(value & mask) = val`. -/
  | poll (size : AccessSize) (offset : BitVec 6) (mask val : Word)
  /-- `MW8`: store one byte. -/
  | mw8 (addr : Word) (v : Byte)
  /-- `MW32`: store four bytes, little-endian. -/
  | mw32 (addr v : Word)
  /-- `MR8`: load one byte; the value is named t<t>. -/
  | mr8 (addr : Word) (t : Nat)
  /-- The reset input is asserted (R260, R270). -/
  | reset
deriving DecidableEq, Repr

/-- A line of host program as written (R110 to R112). Numbers are as the programmer wrote them, so a line may be ill
formed: WellFormed.lean says which lines an assembler accepts. -/
inductive Asm where
  | wr (r : Reg) (imm : Nat)
  | rd (r : Reg) (t : Nat)
  | poll (r : Reg) (mask val : Nat)
  | mw8 (addr imm : Nat)
  | mw32 (addr imm : Nat)
  | mr8 (addr t : Nat)
  | nop
  | encode (d c : Nat)
  | quant (d : Nat)
  | clear
  | enc8m | enc8s | enc16m | enc16s | q8 | q16 | wait
deriving DecidableEq, Repr

/-- A disassembled CMD word (R113): a command mnemonic, or `.word` with the word itself. -/
inductive Listing where
  | word (w : Word)
  | cmd (line : Asm)
deriving DecidableEq, Repr

end Sys2Proof
end

