-- ==== Sys2Proof/Machine/State.lean ====
section
/-! DEFINITION. The state of the block, of system memory and of the host agent (INVENTORY.md, State), the reasons a step can
stop, and the state after reset. Plain data throughout. -/

namespace Sys2Proof.Machine

/-- A supported bit depth (R6 DEPTHS, R102). -/
inductive Depth where
  | d8 | d16
deriving DecidableEq, Repr

/-- A channel layout, selected once per job (R160, R161). -/
inductive Layout where
  | mono | stereo
deriving DecidableEq, Repr

/-- The errors a command can raise (R220), InvalidInput by its cause (R227). -/
inductive CmdError where
  | illegalCommand
  | unsupportedFormat
  | zeroChannels
  | lengthMismatch
  | srcRange
  | capacity
  | dstRange
  | overlap
deriving DecidableEq, Repr

/-- System memory (R70): the bytes that differ from what an unlisted address reads as, in strictly rising order of address
(`Memory.wf` in Ops.lean; log 1). -/
abbrev Memory := List Host.Cell

/-- The stored fields of STATUS (R25). BUSY is not among them: its one home is `State.job` (R41, log 14). Reserved fields
have no storage. -/
structure Status where
  done : Bool
  err : Bool
  drop : Bool
  errcode : BitVec 4
  errinfo : BitVec 4
deriving DecidableEq, Repr

/-- The job record J that an ENCODE latches at acceptance (R40). J.ch, J.w, J.bps and J.len are computed from these fields
(Operands.lean; log 14). -/
structure JobRecord where
  src0 : Word
  src1 : Word
  n : Word
  layout : Layout
  depth : Depth
  dst : Word
deriving DecidableEq, Repr

/-- The hidden progress of a job (R41) and the model's own bookkeeping of its schedule. -/
structure Progress where
  /-- The model's: the number of the draw that fixes this job's schedule (log 4, 5, 13). -/
  draw : Nat
  /-- Engine steps taken so far (R167). -/
  steps : Nat
  /-- The model's: host operations since acceptance or the last engine step (log 3). -/
  hostOps : Nat
  /-- The source bytes read so far: (channel, byte offset in the channel) and the byte read (R41). -/
  fetched : List ((Nat × Nat) × Byte)
  /-- The bytes of the output stream written so far, by their offset (R41). -/
  written : List Nat
  /-- The model's: a host store has hit the job's source or destination region (R75; log 6). -/
  raced : Bool
deriving DecidableEq, Repr

/-- A running job: its record (R40) and its progress (R41). -/
structure Job where
  params : JobRecord
  prog : Progress
deriving DecidableEq, Repr

/-- Everything the spec gives the machine, the host agent and the platform's constants. -/
structure State where
  /-- CTRL.IE (R23). -/
  ie : Bool
  /-- CMD, the last accepted word (R24). -/
  cmd : Word
  /-- STATUS but for BUSY (R25). -/
  status : Status
  /-- SRC0 (R26). -/
  src0 : Word
  /-- SRC1 (R26). -/
  src1 : Word
  /-- LEN0 (R27). -/
  len0 : Word
  /-- LEN1 (R28). -/
  len1 : Word
  /-- DST (R29). -/
  dst : Word
  /-- DST_CAP (R30). -/
  dstCap : Word
  /-- OUT_FMT (R31). -/
  outFmt : Word
  /-- OUT_LEN (R32). -/
  outLen : Word
  /-- RATE (R33). -/
  rate : Word
  /-- QIN (R34). -/
  qin : Word
  /-- QOUT (R35). -/
  qout : Word
  /-- The running job; the engine phase is BUSY exactly while there is one (R40, R41). -/
  job : Option Job
  /-- System memory (R70). -/
  mem : Memory
  /-- The host agent: its operations not yet executed, the next one first (R110; log 2). -/
  program : List HostOp
  /-- The host agent: the values named t<n>, by strictly rising n (R110; log 2). -/
  temps : List (Nat × Word)
  /-- The platform's parameters (R6; log 8). -/
  platform : Platform
  /-- The model's own: how many free draws have been taken (log 13). -/
  draws : Nat
deriving DecidableEq, Repr

/-- Where the machine stops because the host addresses something that the spec says does not exist. -/
inductive Fault where
  /-- Raised by a host memory access that passes address 0xFFFF_FFFF: system memory has 2^32 bytes (R70; log 10). Safe: the
  model stops where the spec gives no access. -/
  | noSuchAddress
deriving DecidableEq, Repr

/-- Where the model has no step, as 93_implementation_defined.md asks. -/
inductive Refusal where
  /-- Raised by `exec` for an instruction without a meaning. No arm of this model uses it. Safe. -/
  | notModelled (mnemonic : String)
  /-- Raised by a host access to the register window that is not an aligned 32-bit access (R21, X4; log 9). Safe. -/
  | windowAccess
  /-- Raised by an ENCODE whose regions meet the register window on a platform that maps both into one space (R82, X5;
  log 8). Safe. -/
  | windowInJob
  /-- Raised by an ENCODE, or a host memory access, that touches an address where the platform has no memory (R72, X12;
  log 8). Safe. -/
  | absentMemory
deriving DecidableEq, Repr

/-- STATUS after reset (R25, R43). -/
def Status.reset : Status := { done := false, err := false, drop := false, errcode := 0, errinfo := 0 }

/-- The platform of `State.reset`: every address present (R6, the default), the window not in system memory (log 8). -/
def Platform.plain : Platform := { regBase := 0, sharedSpace := false, absent := [] }

/-- The machine after reset (R43, R260): every register 0, no job; nothing listed in memory (log 1), an empty host program
(log 2). -/
def State.reset : State where
  ie := false
  cmd := 0
  status := Status.reset
  src0 := 0
  src1 := 0
  len0 := 0
  len1 := 0
  dst := 0
  dstCap := 0
  outFmt := 0
  outLen := 0
  rate := 0
  qin := 0
  qout := 0
  job := none
  mem := []
  program := []
  temps := []
  platform := Platform.plain
  draws := 0

end Sys2Proof.Machine
end

