-- ==== Sys2Proof/Machine/Flags.lean ====
section
/-! DEFINITION. STATUS: its flags' updates, its word as a host reads it (R25, R37), the codes of the errors (R220, R227),
and the irq output (R42). -/

namespace Sys2Proof.Machine

/-- ERRCODE of an error (R220). -/
def CmdError.errcode : CmdError → BitVec 4
  | .zeroChannels | .lengthMismatch | .srcRange | .capacity | .dstRange | .overlap => 1
  | .unsupportedFormat => 2
  | .illegalCommand => 3

/-- ERRINFO of an error: 1 to 6 for the causes of InvalidInput, 0 otherwise (R25, R227). -/
def CmdError.errinfo : CmdError → BitVec 4
  | .zeroChannels => 1
  | .lengthMismatch => 2
  | .srcRange => 3
  | .capacity => 4
  | .dstRange => 5
  | .overlap => 6
  | .unsupportedFormat | .illegalCommand => 0

/-- DONE, ERR, ERRCODE and ERRINFO cleared: the acceptance of any word other than a legal NOP (R103). -/
def Status.clearResult (st : Status) : Status := { st with done := false, err := false, errcode := 0, errinfo := 0 }

/-- DONE set: a command has completed (R140, R168). -/
def Status.setDone (st : Status) : Status := { st with done := true }

/-- DROP set: a CMD write was dropped (R24, R225). -/
def Status.setDrop (st : Status) : Status := { st with drop := true }

/-- DROP cleared (R201). -/
def Status.clearDrop (st : Status) : Status := { st with drop := false }

/-- The record of a raised error (R223). -/
def Status.raise (e : CmdError) (st : Status) : Status :=
  { st with err := true, errcode := e.errcode, errinfo := e.errinfo }

/-- STATUS as read, each field at its place in the bit table of R25, reserved bits 0. -/
def Status.word (busy : Bool) (st : Status) : Word :=
  BitVec.ofNat 32 (busy.toNat + st.done.toNat * 2 ^ 1 + st.err.toNat * 2 ^ 2 + st.drop.toNat * 2 ^ 3
    + st.errcode.toNat * 2 ^ 8 + st.errinfo.toNat * 2 ^ 12)

/-- STATUS.BUSY, the engine phase: a job is running (R25, R41). -/
def State.busy (s : State) : Bool := s.job.isSome

/-- The irq output, `CTRL.IE & (STATUS.DONE | STATUS.ERR)` (R42, R240). -/
def State.irq (s : State) : Bool := s.ie && (s.status.done || s.status.err)

end Sys2Proof.Machine
end

