-- ==== Sys2Proof/WellFormed.lean ====
section
/-! DEFINITION. Which lines of host program an assembler accepts (R110, R111). An `Instr` needs no check: its two operand
fields are 8-bit vectors, and every value of both is encodable (R102, R105, R106). A `HostOp` needs none either: its
offset, address and data have the widths of the accesses. What a host operation may not do (X4) is the step's to refuse. -/

namespace Sys2Proof

/-- R111: "Operands d and c are unsigned numbers 0 to 255 [...] an assembler refuses a value outside that range"; an imm32,
an address and an imm8 fit in 32, 32 and 8 bits (R110). -/
def Asm.wellFormed : Asm → Bool
  | .wr _ imm => decide (imm < 2 ^ 32)
  | .rd _ _ => true
  | .poll _ mask val => decide (mask < 2 ^ 32) && decide (val < 2 ^ 32)
  | .mw8 addr imm => decide (addr < 2 ^ 32) && decide (imm < 2 ^ 8)
  | .mw32 addr imm => decide (addr < 2 ^ 32) && decide (imm < 2 ^ 32)
  | .mr8 addr _ => decide (addr < 2 ^ 32)
  | .encode d c => decide (d ≤ 255) && decide (c ≤ 255)
  | .quant d => decide (d ≤ 255)
  | .nop | .clear | .enc8m | .enc8s | .enc16m | .enc16s | .q8 | .q16 | .wait => true

end Sys2Proof
end

