-- ==== Sys2Proof/Decode.lean ====
section
/-! DEFINITION. The command word's fields (R100), its decoder (R103, R104) and encoder, the register offsets (R21), and
the assembler and disassembler of R111 to R113. -/

namespace Sys2Proof

/-! ### Fields of a command word (R100) -/

/-- OP, bits [3:0]. -/
def opField (w : Word) : BitVec 4 := w.extractLsb' 0 4
/-- RSV0, bits [7:4]. -/
def rsv0Field (w : Word) : BitVec 4 := w.extractLsb' 4 4
/-- DEPTH, bits [15:8]. -/
def depthField (w : Word) : Byte := w.extractLsb' 8 8
/-- NCH, bits [23:16]. -/
def nchField (w : Word) : Byte := w.extractLsb' 16 8
/-- RSV1, bits [31:24]. -/
def rsv1Field (w : Word) : Byte := w.extractLsb' 24 8

/-- The instruction a word stands for, or why it is illegal (R103, R104). -/
def decode (w : Word) : Except IllegalWord Instr :=
  if rsv0Field w ≠ 0 then .error .rsv0
  else if rsv1Field w ≠ 0 then .error .rsv1
  else match (opField w).toNat with
    | 0 => .ok (.nop (depthField w) (nchField w))
    | 1 => .ok (.encode (depthField w) (nchField w))
    | 2 => .ok (.quant (depthField w) (nchField w))
    | 3 => .ok (.clear (depthField w) (nchField w))
    | _ => .error .reservedOp

/-- A legal word from its fields (R100): OP at bit 0, DEPTH at bit 8, NCH at bit 16, RSV0 and RSV1 zero. -/
def joinFields (op : BitVec 4) (depth nch : Byte) : Word :=
  BitVec.ofNat 32 (op.toNat + depth.toNat * 2 ^ 8 + nch.toNat * 2 ^ 16)

/-- The OP value of each command (R101). -/
def opOf : Instr → BitVec 4
  | .nop _ _ => 0x0
  | .encode _ _ => 0x1
  | .quant _ _ => 0x2
  | .clear _ _ => 0x3

/-- The word of an instruction (R100, R111). -/
def encodeInstr (i : Instr) : Word :=
  match i with
  | .nop depth nch => joinFields (opOf i) depth nch
  | .encode depth nch => joinFields (opOf i) depth nch
  | .quant depth nch => joinFields (opOf i) depth nch
  | .clear depth nch => joinFields (opOf i) depth nch

/-- The instruction read from a word numbered as opcode_table.json numbers it: a command is one 32-bit word (R109), bit 0
the least significant; bits at `nbits` and above are 0. Nothing wider than 32 bits is a command. -/
def decodeTableWord (nbits w : Nat) : Option Instr :=
  if nbits ≤ 32 then
    match decode (BitVec.ofNat 32 (w % 2 ^ nbits)) with
    | .ok i => some i
    | .error _ => none
  else none

/-! ### The register window's offsets (R21) -/

/-- The offset of a register in the window. -/
def Reg.offset : Reg → BitVec 6
  | .id => 0x00 | .ctrl => 0x04 | .cmd => 0x08 | .status => 0x0C
  | .src0 => 0x10 | .src1 => 0x14 | .len0 => 0x18 | .len1 => 0x1C
  | .dst => 0x20 | .dstCap => 0x24 | .outFmt => 0x28 | .outLen => 0x2C
  | .rate => 0x30 | .qin => 0x34 | .qout => 0x38 | .reserved => 0x3C

/-- The register a host access reaches: defined only for a 32-bit access at a multiple of 4 (R21). -/
def regAccess (size : AccessSize) (offset : BitVec 6) : Option Reg :=
  match size with
  | .word =>
    match offset.toNat with
    | 0x00 => some .id | 0x04 => some .ctrl | 0x08 => some .cmd | 0x0C => some .status
    | 0x10 => some .src0 | 0x14 => some .src1 | 0x18 => some .len0 | 0x1C => some .len1
    | 0x20 => some .dst | 0x24 => some .dstCap | 0x28 => some .outFmt | 0x2C => some .outLen
    | 0x30 => some .rate | 0x34 => some .qin | 0x38 => some .qout | 0x3C => some .reserved
    | _ => none
  | .byte | .half | .double => none

/-! ### Assembler and disassembler (R110 to R113) -/

/-- The host operation that writes a command word to CMD (R111). -/
def writeCmd (w : Word) : HostOp := .wr .word Reg.cmd.offset w

/-- The operation of a well-formed line: mnemonics write their word to CMD (R111), pseudo-instructions expand (R112). -/
def expand : Asm → HostOp
  | .wr r imm => .wr .word r.offset (BitVec.ofNat 32 imm)
  | .rd r t => .rd .word r.offset t
  | .poll r mask val => .poll .word r.offset (BitVec.ofNat 32 mask) (BitVec.ofNat 32 val)
  | .mw8 addr imm => .mw8 (BitVec.ofNat 32 addr) (BitVec.ofNat 8 imm)
  | .mw32 addr imm => .mw32 (BitVec.ofNat 32 addr) (BitVec.ofNat 32 imm)
  | .mr8 addr t => .mr8 (BitVec.ofNat 32 addr) t
  | .nop => writeCmd (encodeInstr (.nop 0 0))
  | .encode d c => writeCmd (encodeInstr (.encode (BitVec.ofNat 8 d) (BitVec.ofNat 8 c)))
  | .quant d => writeCmd (encodeInstr (.quant (BitVec.ofNat 8 d) 0))
  | .clear => writeCmd (encodeInstr (.clear 0 0))
  | .enc8m => writeCmd (encodeInstr (.encode 8 1))
  | .enc8s => writeCmd (encodeInstr (.encode 8 2))
  | .enc16m => writeCmd (encodeInstr (.encode 16 1))
  | .enc16s => writeCmd (encodeInstr (.encode 16 2))
  | .q8 => writeCmd (encodeInstr (.quant 8 0))
  | .q16 => writeCmd (encodeInstr (.quant 16 0))
  | .wait => .poll .word Reg.status.offset 0x1 0x0

/-- The assembler: it refuses a line with a value outside its range (R111). -/
def assemble (line : Asm) : Option HostOp := if line.wellFormed then some (expand line) else none

/-- Disassembly of a CMD word (R113): fields an operation ignores are not printed. -/
def disassemble (w : Word) : Listing :=
  match decode w with
  | .error _ => .word w
  | .ok (.nop _ _) => .cmd .nop
  | .ok (.encode depth nch) => .cmd (.encode depth.toNat nch.toNat)
  | .ok (.quant depth _) => .cmd (.quant depth.toNat)
  | .ok (.clear _ _) => .cmd .clear

end Sys2Proof
end

