-- ==== Sys2Proof/Machine/Operands.lean ====
section
/-! DEFINITION. Operand forms: the depth and channel-count fields of a command (R102, R105, R161), the binary32 sample
(R107, R108), the two's-complement code (R134), and the quantities of a job record (R40, R161 to R163). -/

namespace Sys2Proof.Machine

/-! ### Depth (R6, R102, R131) -/

/-- J.w: bits per output sample. -/
def Depth.bits : Depth → Nat
  | .d8 => 8
  | .d16 => 16

/-- BPS: bytes per output sample, `d / 8` (R6, R165). -/
def Depth.bytes (d : Depth) : Nat := d.bits / 8

/-- The scale S: `S(16) = 32767`, `S(8) = 127` (R131; log 16). -/
def Depth.scale : Depth → Nat
  | .d8 => 127
  | .d16 => 32767

/-- The depth a DEPTH field asks for: 8 and 16 are supported, nothing else (R102). -/
def Depth.ofField (depth : Byte) : Option Depth :=
  if depth = 8 then some .d8 else if depth = 16 then some .d16 else none

/-! ### Layout (R105, R161) -/

/-- J.ch: the channels emitted. -/
def Layout.channels : Layout → Nat
  | .mono => 1
  | .stereo => 2

/-- The layout an NCH field selects: none for 0, mono for 1, stereo for 2 to 255 (R105, R161). -/
def Layout.ofField (nch : Byte) : Option Layout :=
  if nch = 0 then none else if nch = 1 then some .mono else some .stereo

/-! ### The binary32 sample (R107, R108) -/

/-- The sign field, `f[31]`. -/
def sampleSign (f : Word) : Bool := f.getLsbD 31

/-- The biased exponent field, `f[30:23]`. -/
def sampleExp (f : Word) : Nat := (f.extractLsb' 23 8).toNat

/-- The fraction field, `f[22:0]`. -/
def sampleFrac (f : Word) : Nat := (f.extractLsb' 0 23).toNat

/-- The classes of a pattern (R107). Quiet and signalling NaNs are treated alike. -/
inductive SampleClass where
  | nan (quiet : Bool) | infinity | zero | subnormal | normal
deriving DecidableEq, Repr

/-- The class of a pattern (R107). -/
def sampleClass (f : Word) : SampleClass :=
  if sampleExp f = 255 then (if sampleFrac f ≠ 0 then .nan (f.getLsbD 22) else .infinity)
  else if sampleExp f = 0 then (if sampleFrac f = 0 then .zero else .subnormal)
  else .normal

/-! ### The code of a quantized integer (R134) -/

/-- `code_w(q) = q mod 2^w`, the two's-complement pattern. -/
def code (d : Depth) (q : Int) : BitVec d.bits := BitVec.ofInt d.bits q

/-- Byte `b` of a code, `code[8b+7 : 8b]` (R165). -/
def codeByte (d : Depth) (q : Int) (b : Nat) : Byte := (code d q).extractLsb' (8 * b) 8

/-! ### Quantities of a job record (R40, R161 to R164) -/

/-- J.ch (R161). -/
def JobRecord.ch (R : JobRecord) : Nat := R.layout.channels

/-- J.bps (R162). -/
def JobRecord.bps (R : JobRecord) : Nat := R.depth.bytes

/-- J.len: `L = ch * n * bps`, over unbounded integers (R162). -/
def JobRecord.len (R : JobRecord) : Nat := R.ch * R.n.toNat * R.bps

/-- J.src_c (R164). -/
def JobRecord.srcBase (R : JobRecord) (c : Nat) : Nat := if c = 0 then R.src0.toNat else R.src1.toNat

/-- The bytes of one source channel, `4 * n` (R164). -/
def JobRecord.srcLen (R : JobRecord) : Nat := 4 * R.n.toNat

/-- The source addresses of the participating channels (R161). -/
def JobRecord.sources (R : JobRecord) : List Nat := (List.range R.ch).map R.srcBase

/-- The stream offset of the code of sample `i` of channel `c`: `k = (i * ch + c) * bps` (R163). -/
def JobRecord.position (R : JobRecord) (i c : Nat) : Nat := (i * R.ch + c) * R.bps

/-- The bytes a job reads: (channel, byte offset in that channel), all of every participating channel (R164). -/
def JobRecord.sourceBytes (R : JobRecord) : List (Nat × Nat) :=
  (List.range R.ch).flatMap fun c => (List.range R.srcLen).map fun j => (c, j)

/-- The address lies in the job's destination region `[J.dst, J.dst + J.len)` (R75). -/
abbrev JobRecord.inDest (R : JobRecord) (a : Nat) : Prop := R.dst.toNat ≤ a ∧ a < R.dst.toNat + R.len

/-- The address lies in a source region `[J.src_c, J.src_c + 4n)` of a participating channel (R75). -/
abbrev JobRecord.inSource (R : JobRecord) (a : Nat) : Prop := ∃ b ∈ R.sources, b ≤ a ∧ a < b + R.srcLen

/-- The OUT_FMT value of a completed job: `zext_32(J.ch) | (J.w << 8) | (J.bps << 16)` (R31, R168). -/
def JobRecord.outFmt (R : JobRecord) : Word :=
  BitVec.ofNat 32 (R.ch ||| (R.depth.bits <<< 8) ||| (R.bps <<< 16))

end Sys2Proof.Machine
end

