-- ==== Sys2Proof/Machine/Ops.lean ====
section
/-! DEFINITION. The named operations over system memory (R70, R71), over the register window (R21 to R36) and over the
command interface: acceptance, dropping, raising an error (R24, R103, R223), and the platform's checks (R72, R82). -/

namespace Sys2Proof.Machine

/-! ### Sparse cells: a list of (key, value) by strictly rising key -/

/-- Set the value of a key, in place if it is listed, else before the first greater key. -/
def cellsSet {α : Type} (l : List (Nat × α)) (a : Nat) (v : α) : List (Nat × α) :=
  match l with
  | [] => [(a, v)]
  | (k, w) :: rest =>
    if a < k then (a, v) :: (k, w) :: rest
    else if a = k then (a, v) :: rest
    else (k, w) :: cellsSet rest a v

/-- Remove a key. -/
def cellsErase {α : Type} (l : List (Nat × α)) (a : Nat) : List (Nat × α) := l.filter fun c => c.1 ≠ a

/-! ### System memory (R70, R71) -/

/-- What an unlisted address reads as (log 1). -/
def unlistedByte : Byte := 0x00

/-- One byte of memory. -/
def Memory.read (m : Memory) (a : Nat) : Byte := (m.lookup a).getD unlistedByte

/-- Write one byte, keeping the canonical form. -/
def Memory.write (m : Memory) (a : Nat) (b : Byte) : Memory :=
  if b = unlistedByte then cellsErase m a else cellsSet m a b

/-- The canonical form: addresses strictly rising and inside the space of R70, no cell equal to what an unlisted address
reads as. -/
abbrev Memory.wf (m : Memory) : Prop :=
  m.Pairwise (fun c d => c.1 < d.1) ∧ ∀ c ∈ m, c.1 < 2 ^ 32 ∧ c.2 ≠ unlistedByte

/-- Four bytes assembled little-endian, the first at the lowest address: the sum of byte k times 2^(8k) (R71). -/
def joinBytes (b0 b1 b2 b3 : Byte) : Word :=
  BitVec.ofNat 32 (b0.toNat + b1.toNat * 2 ^ 8 + b2.toNat * 2 ^ 16 + b3.toNat * 2 ^ 24)

/-- `MemRead(a, 4)` (R71). -/
def Memory.readWord (m : Memory) (a : Nat) : Word :=
  joinBytes (m.read a) (m.read (a + 1)) (m.read (a + 2)) (m.read (a + 3))

/-- Write stream bytes, each by its offset from `base`. -/
def Memory.writeAll (m : Memory) (base : Nat) (ws : List (Nat × Byte)) : Memory :=
  ws.foldl (fun m w => m.write (base + w.1) w.2) m

/-- The four bytes of a word, least significant first, by their offset (R71). -/
def wordBytes (v : Word) : List (Nat × Byte) :=
  [(0, v.extractLsb' 0 8), (1, v.extractLsb' 8 8), (2, v.extractLsb' 16 8), (3, v.extractLsb' 24 8)]

/-- The unspecified bytes of a region, offset by offset: free values of this draw (X6; log 6, 7). -/
def freeBytes (draw len : Nat) : List (Nat × Byte) := (List.range len).map fun k => (k, Config.freeByte draw k)

/-! ### The command interface (R24, R103, R223) -/

/-- A CMD write while BUSY: nothing but DROP changes (R24, R225). -/
def State.dropCmd (s : State) : State := { s with status := s.status.setDrop }

/-- Acceptance: the word becomes CMD's readback value (R24, R103). -/
def State.accept (s : State) (w : Word) : State := { s with cmd := w }

/-- Acceptance of any word other than a legal NOP clears the last result (R103); it is also all there is of a return from
an error (R224). -/
def State.clearResult (s : State) : State := { s with status := s.status.clearResult }

/-- `raise E(info)`: the one way a command ends in an error; STATUS records it and nothing else is saved (R223). -/
def State.raise (s : State) (e : CmdError) : State := { s with status := s.status.raise e }

/-- The issue of a command word: dropped while BUSY, else accepted and executed in the same step (R24). -/
def State.issue (s : State) (w : Word) (body : State → Host.Outcome State Fault Refusal) :
    Host.Outcome State Fault Refusal :=
  if s.busy then .next s.dropCmd else body (s.accept w)

/-- The issue of an illegal word raises IllegalCommand (R103, R104, R221). -/
def State.issueIllegal (s : State) (w : Word) : Host.Outcome State Fault Refusal :=
  s.issue w fun s => .next (s.clearResult.raise .illegalCommand)

/-! ### The register window (R21 to R36) -/

/-- ID's constant (R22; log 15). -/
def idValue : Word := 0x00010203

/-- The value a host read of a register returns. -/
def State.readReg (s : State) : Reg → Word
  | .id => idValue
  | .ctrl => (BitVec.ofBool s.ie).setWidth 32
  | .cmd => s.cmd
  | .status => s.status.word s.busy
  | .src0 => s.src0
  | .src1 => s.src1
  | .len0 => s.len0
  | .len1 => s.len1
  | .dst => s.dst
  | .dstCap => s.dstCap
  | .outFmt => s.outFmt
  | .outLen => s.outLen
  | .rate => s.rate
  | .qin => s.qin
  | .qout => s.qout
  | .reserved => 0

/-- A host write of a register other than CMD: reserved bits and read-only registers ignore it (R21). A write of CMD is the
issue of a command (HostAgent.lean), not this operation's. -/
def State.writeParam (s : State) (r : Reg) (v : Word) : State :=
  match r with
  | .ctrl => { s with ie := v.getLsbD 0 }
  | .src0 => { s with src0 := v }
  | .src1 => { s with src1 := v }
  | .len0 => { s with len0 := v }
  | .len1 => { s with len1 := v }
  | .dst => { s with dst := v }
  | .dstCap => { s with dstCap := v }
  | .rate => { s with rate := v }
  | .qin => { s with qin := v }
  | .id | .cmd | .status | .outFmt | .outLen | .qout | .reserved => s

/-- Name a value t<t> (R110). -/
def State.setTemp (s : State) (t : Nat) (v : Word) : State := { s with temps := cellsSet s.temps t v }

/-! ### The platform's parameters (R21, R72, R82) -/

/-- Two byte ranges share an address. -/
abbrev Meets (b₁ l₁ b₂ l₂ : Nat) : Prop := 0 < l₁ ∧ 0 < l₂ ∧ b₁ < b₂ + l₂ ∧ b₂ < b₁ + l₁

/-- REG_BASE, 64-byte aligned (R21). -/
def platformRegBase (p : Platform) : Nat := p.regBase.toNat * 64

/-- The range meets the register window, on a platform that maps it into system memory (R82). -/
abbrev WindowMeets (p : Platform) (a len : Nat) : Prop :=
  p.sharedSpace = true ∧ Meets a len (platformRegBase p) 64

/-- The range holds an address where no memory is present (R72). -/
abbrev Lacks (p : Platform) (a len : Nat) : Prop := ∃ r ∈ p.absent, Meets a len r.base r.size

/-- Why a job is refused at launch: a region of it has no memory (R72, X12) or meets the register window (R82, X5). -/
def launchRefusal (p : Platform) (R : JobRecord) : Option Refusal :=
  if Lacks p R.dst.toNat R.len ∨ ∃ b ∈ R.sources, Lacks p b R.srcLen then some .absentMemory
  else if WindowMeets p R.dst.toNat R.len ∨ ∃ b ∈ R.sources, WindowMeets p b R.srcLen then some .windowInJob
  else none

end Sys2Proof.Machine
end

