-- ==== Sys2Proof/Machine/Control.lean ====
section
/-! DEFINITION. The control commands NOP and CLEAR (42_control.md). -/

namespace Sys2Proof.Machine

/-- NOP: acceptance records the word and nothing else happens (R200). -/
def execNop (depth nch : Byte) (s : State) : Host.Outcome State Fault Refusal :=
  s.issue (encodeInstr (.nop depth nch)) fun s => .next s

/-- CLEAR: DONE, ERR, ERRCODE, ERRINFO (by R103) and DROP become 0 (R201). -/
def execClear (depth nch : Byte) (s : State) : Host.Outcome State Fault Refusal :=
  s.issue (encodeInstr (.clear depth nch)) fun s =>
    let s := s.clearResult
    .next { s with status := s.status.clearDrop }

end Sys2Proof.Machine
end

