-- ==== Sys2Proof/Machine/Encode.lean ====
section
/-! DEFINITION. The acceptance of ENCODE: its checks in order and the latching of the job (R166, R222, R227). -/

namespace Sys2Proof.Machine

/-- The job record an ENCODE would latch, from the registers (R166). -/
def State.recordOf (s : State) (d : Depth) (lay : Layout) : JobRecord :=
  { src0 := s.src0, src1 := s.src1, n := s.len0, layout := lay, depth := d, dst := s.dst }

/-- A participating source passes the top of memory: `SRCc + 4n > 2^32` (R166 SRC_RANGE). -/
abbrev JobRecord.srcOutOfRange (R : JobRecord) : Prop := ∃ b ∈ R.sources, 2 ^ 32 < b + R.srcLen

/-- The destination meets a participating source: `L > 0`, `DST < SRCc + 4n` and `SRCc < DST + L` (R166 OVERLAP). -/
abbrev JobRecord.overlaps (R : JobRecord) : Prop :=
  ∃ b ∈ R.sources, 0 < R.len ∧ R.dst.toNat < b + R.srcLen ∧ b < R.dst.toNat + R.len

/-- The checks of ENCODE in the order of R166 and R222: the first that fails is the one reported. -/
def State.encodeChecks (s : State) (depth nch : Byte) : Except CmdError JobRecord :=
  match Depth.ofField depth with
  | none => .error .unsupportedFormat
  | some d =>
    match Layout.ofField nch with
    | none => .error .zeroChannels
    | some lay =>
      let R := s.recordOf d lay
      if lay = .stereo ∧ s.len1 ≠ s.len0 then .error .lengthMismatch
      else if R.srcOutOfRange then .error .srcRange
      else if s.dstCap.toNat < R.len then .error .capacity
      else if 2 ^ 32 < R.dst.toNat + R.len then .error .dstRange
      else if R.overlaps then .error .overlap
      else .ok R

/-- A job that has made no access and taken no engine step. -/
def Job.fresh (R : JobRecord) (draw : Nat) : Job :=
  { params := R, prog := { draw := draw, steps := 0, hostOps := 0, fetched := [], written := [], raced := false } }

/-- BUSY <- 1 with the latched record (R166); the job's schedule is the next free draw (log 4, 5). -/
def State.startJob (s : State) (R : JobRecord) : State :=
  { s with job := some (Job.fresh R s.draws), draws := s.draws + 1 }

/-- ENCODE, acceptance (R166): OUT_LEN and OUT_FMT are cleared, the checks are made, and the job starts. A job in absent
memory or in the register window is refused (R72, R82). -/
def execEncode (depth nch : Byte) (s : State) : Host.Outcome State Fault Refusal :=
  s.issue (encodeInstr (.encode depth nch)) fun s =>
    let s := { s.clearResult with outLen := 0, outFmt := 0 }
    match s.encodeChecks depth nch with
    | .error e => .next (s.raise e)
    | .ok R =>
      match launchRefusal s.platform R with
      | some r => .refused r
      | none => .next (s.startJob R)

end Sys2Proof.Machine
end

