-- ==== Sys2Proof/Machine/Quantizer.lean ====
section
/-! DEFINITION. The quantizer stage: the bit-exact procedure that QUANT and ENCODE run (R133), and beside it the rule it
stands for, clamp, scale and truncate over the exact rationals (R130, R132). -/

namespace Sys2Proof.Machine

/-- `quantize(f, w)`, the integer procedure of R133 (R130 for NaN, R131 for the scale). -/
def quantize (f : Word) (d : Depth) : Int :=
  if sampleExp f = 255 ∧ sampleFrac f ≠ 0 then 0
  else
    let mag : Nat :=
      if 127 ≤ sampleExp f then d.scale
      else if sampleExp f = 0 then (sampleFrac f * d.scale) >>> 149
      else ((2 ^ 23 + sampleFrac f) * d.scale) >>> (150 - sampleExp f)
    if sampleSign f then -(mag : Int) else (mag : Int)

/-! ### The rule over exact numbers (R108, R132) -/

/-- An extended real that a binary32 pattern can denote (R108). -/
inductive ExtRat where
  | negInf
  | fin (q : ℚ)
  | posInf
deriving DecidableEq

/-- The value of a pattern, none for a NaN (R108). -/
def sampleValue (f : Word) : Option ExtRat :=
  let sign : ℚ := if sampleSign f then -1 else 1
  match sampleClass f with
  | .nan _ => none
  | .infinity => some (if sampleSign f then .negInf else .posInf)
  | .zero | .subnormal => some (.fin (sign * sampleFrac f * 2 ^ (-149 : ℤ)))
  | .normal => some (.fin (sign * (2 ^ 23 + sampleFrac f) * 2 ^ ((sampleExp f : ℤ) - 150)))

/-- `clamp(x, -1.0, 1.0)` over the extended reals (00_scope.md section 5). -/
def clampUnit : ExtRat → ℚ
  | .negInf => -1
  | .posInf => 1
  | .fin q => if q < -1 then -1 else if 1 < q then 1 else q

/-- `trunc(y)`, the integer part toward zero (00_scope.md section 5). -/
def truncRat (y : ℚ) : Int := if 0 ≤ y then ⌊y⌋ else -⌊-y⌋

/-- The quantizer by its rule: `trunc(clamp(x, -1.0, 1.0) * S(w))` with no intermediate rounding (R132), 0 for a NaN
(R130). -/
def quantizeExact (f : Word) (d : Depth) : Int :=
  match sampleValue f with
  | none => 0
  | some x => truncRat (clampUnit x * d.scale)

end Sys2Proof.Machine
end

