-- ==== Sys2Proof/Machine/Quant.lean ====
section
/-! DEFINITION. The QUANT command (R140). -/

namespace Sys2Proof.Machine

/-- QUANT: QIN quantized at the requested depth, its code sign-extended into QOUT, DONE set; an unsupported depth raises
UnsupportedFormat and leaves QOUT (R140, R228). NCH is ignored (R106). -/
def execQuant (depth nch : Byte) (s : State) : Host.Outcome State Fault Refusal :=
  s.issue (encodeInstr (.quant depth nch)) fun s =>
    let s := s.clearResult
    match Depth.ofField depth with
    | none => .next (s.raise .unsupportedFormat)
    | some d =>
      .next { s with qout := (code d (quantize s.qin d)).signExtend 32, status := s.status.setDone }

end Sys2Proof.Machine
end

