-- ==== Sys2Proof/Machine/Dispatch.lean ====
section
/-! DEFINITION. One arm per command (R101). -/

namespace Sys2Proof.Machine

/-- The issue of a legal command: dropped while BUSY, else accepted and executed (R24, R103). -/
def exec (i : Instr) (s : State) : Host.Outcome State Fault Refusal :=
  match i with
  | .nop depth nch => Sys2Proof.Machine.execNop depth nch s
  | .encode depth nch => Sys2Proof.Machine.execEncode depth nch s
  | .quant depth nch => Sys2Proof.Machine.execQuant depth nch s
  | .clear depth nch => Sys2Proof.Machine.execClear depth nch s

end Sys2Proof.Machine
end

