-- ==== Sys2Proof/Machine/Engine.lean ====
section
/-! DEFINITION. The engine while BUSY: reading source bytes, writing stream bytes in an unspecified order over its steps
(R164, R165, R167), completion (R168), the reset input (R260, R261), and ENCODE as a function (R170). -/

namespace Sys2Proof.Machine

/-! ### The byte stream as a function of memory (R163 to R165, R170) -/

/-- The bytes of one code, least significant first (R165). -/
def packBytes (d : Depth) (q : Int) : List Byte := (List.range d.bytes).map (codeByte d q)

/-- `encode(samples, depth)`: frame after frame, channel after channel, each code packed (R170). -/
def encodeStream (R : JobRecord) (m : Memory) : List Byte :=
  (List.range R.n.toNat).flatMap fun i =>
    (List.range R.ch).flatMap fun c =>
      packBytes R.depth (quantize (m.readWord (R.srcBase c + 4 * i)) R.depth)

/-! ### Reading (R164, R167) -/

/-- The engine reads the source bytes it has not read yet and `take` picks, from memory as it is now. -/
def Job.fetch (J : Job) (take : Nat → Nat → Bool) (m : Memory) : Job :=
  let new := J.params.sourceBytes.filter fun p => (J.prog.fetched.lookup p).isNone && take p.1 p.2
  let got := new.map fun p => (p, m.read (J.params.srcBase p.1 + p.2))
  { J with prog := { J.prog with fetched := J.prog.fetched ++ got } }

/-- Sample `i` of channel `c`, once its four bytes have been read (R71, R164). -/
def Job.sample (J : Job) (c i : Nat) : Option Word :=
  match J.prog.fetched.lookup (c, 4 * i), J.prog.fetched.lookup (c, 4 * i + 1),
      J.prog.fetched.lookup (c, 4 * i + 2), J.prog.fetched.lookup (c, 4 * i + 3) with
  | some b0, some b1, some b2, some b3 => some (joinBytes b0 b1 b2 b3)
  | _, _, _, _ => none

/-! ### Writing (R163, R165, R167) -/

/-- Byte `k` of the output stream, once its sample has been read: the stream position of R163 read backwards (sample slot
`k / bps`, byte `k mod bps` of its code). -/
def Job.streamByte (J : Job) (k : Nat) : Option Byte :=
  let slot := k / J.params.bps
  match J.sample (slot % J.params.ch) (slot / J.params.ch) with
  | some f => some (codeByte J.params.depth (quantize f J.params.depth) (k % J.params.bps))
  | none => none

/-- The stream bytes the engine writes now: not written yet, picked by `put`, and their sample read. -/
def Job.readyBytes (J : Job) (put : Nat → Bool) : List (Nat × Byte) :=
  (List.range J.params.len).filterMap fun k =>
    if J.prog.written.contains k || !put k then none
    else match J.streamByte k with
      | some b => some (k, b)
      | none => none

/-! ### One engine step (R167, R168) -/

/-- Completion (R168). If a host store raced with the job, every destination byte becomes a free value (R75, X6; log 6). -/
def State.completeJob (s : State) (J : Job) : State :=
  { s with
    outLen := BitVec.ofNat 32 J.params.len
    outFmt := J.params.outFmt
    job := none
    status := s.status.setDone
    mem := if J.prog.raced then s.mem.writeAll J.params.dst.toNat (freeBytes s.draws J.params.len) else s.mem
    draws := if J.prog.raced then s.draws + 1 else s.draws }

/-- One engine step under given choices: reads, then writes; the last step makes every access that is left and completes
(R167, R168; log 5). -/
def State.engineTurn (s : State) (J : Job) (last : Bool) (take : Nat → Nat → Bool) (put : Nat → Bool) : State :=
  let J' := J.fetch (fun c j => last || take c j) s.mem
  let ws := J'.readyBytes fun k => last || put k
  let s' := { s with mem := s.mem.writeAll J.params.dst.toNat ws }
  if last then s'.completeJob J'
  else
    { s' with
      job := some { J' with
        prog := { J'.prog with
          written := J'.prog.written ++ ws.map (·.1), steps := J'.prog.steps + 1, hostOps := 0 } } }

/-- This engine step ends the job: the job takes `jobSteps + 1` of them (R6 JOB_STEPS, R167; log 4). -/
def Job.lastStep (J : Job) : Bool := decide (Config.jobSteps J.prog.draw ≤ J.prog.steps)

/-- One engine step, its choices taken from the job's free draw. -/
def State.engineStep (s : State) (J : Job) : State :=
  s.engineTurn J J.lastStep (Config.readNow J.prog.draw J.prog.steps) (Config.writeNow J.prog.draw J.prog.steps)

/-- While BUSY, the engine moves next: the host operations of this burst are used up, or the host has none (R269; log 3). -/
def State.engineMoves (s : State) (J : Job) : Bool :=
  s.program.isEmpty || decide (Config.hostBurst J.prog.draw J.prog.steps ≤ J.prog.hostOps)

/-! ### The reset input (R260, R261) -/

/-- Reset: the block's registers and engine as R43 says; memory is not changed, but for the destination of an aborted job,
whose bytes become free values (R261; log 7). The host's program and the platform are not the block's. -/
def State.resetInput (s : State) : State :=
  { State.reset with
    mem := match s.job with
      | none => s.mem
      | some J => s.mem.writeAll J.params.dst.toNat (freeBytes s.draws J.params.len)
    draws := match s.job with
      | none => s.draws
      | some _ => s.draws + 1
    program := s.program
    temps := s.temps
    platform := s.platform }

end Sys2Proof.Machine
end

