-- ==== Sys2Proof/Machine/HostAgent.lean ====
section
/-! DEFINITION. The host's operations as the block and system memory take them (R110, R270), and the fetch of the next
one. -/

namespace Sys2Proof.Machine

/-- A write of CMD: the word is decoded and issued (R24, R103). -/
def State.writeCmdReg (s : State) (w : Word) : Host.Outcome State Fault Refusal :=
  match decode w with
  | .ok i => exec i s
  | .error _ => s.issueIllegal w

/-- A host write of a register (R21 to R36). -/
def State.writeReg (s : State) (r : Reg) (v : Word) : Host.Outcome State Fault Refusal :=
  match r with
  | .cmd => s.writeCmdReg v
  | .id | .ctrl | .status | .src0 | .src1 | .len0 | .len1 | .dst | .dstCap | .outFmt | .outLen | .rate | .qin | .qout
  | .reserved => .next (s.writeParam r v)

/-- Where a host memory access goes: past the top of memory it faults (R70; log 10); in the register window of a platform
that maps it into system memory it is a register access (R82; log 11); where no memory is present it is refused (R72). -/
def State.hostMem (s : State) (a len : Nat) (viaWindow viaMemory : Host.Outcome State Fault Refusal) :
    Host.Outcome State Fault Refusal :=
  if 2 ^ 32 < a + len then .fault .noSuchAddress
  else if WindowMeets s.platform a len then viaWindow
  else if Lacks s.platform a len then .refused .absentMemory
  else viaMemory

/-- The job with the note that a host store to this address raced with it: the address is in its destination or in a
participating source (R75; log 6). -/
def Job.noteStore (J : Job) (a : Nat) : Job :=
  if J.params.inDest a ∨ J.params.inSource a then { J with prog := { J.prog with raced := true } } else J

/-- A host store of one byte (R110, R75). -/
def State.storeByte (s : State) (a : Nat) (b : Byte) : State :=
  { s with mem := s.mem.write a b, job := s.job.map (·.noteStore a) }

/-- A host store of bytes, each by its offset. -/
def State.storeBytes (s : State) (a : Nat) (bs : List (Nat × Byte)) : State :=
  bs.foldl (fun s w => s.storeByte (a + w.1) w.2) s

/-- A host load of this byte is a load from the destination of a job that a host store has raced with (R75). -/
def State.loadsRaced (s : State) (a : Nat) : Bool :=
  match s.job with
  | none => false
  | some J => J.prog.raced && decide (J.params.inDest a)

/-- A host load of one byte, named t<t> (R110; log 12): the byte in memory, which is the old or the final one during a job
(R75), or a free value if the job has been raced with (log 6). -/
def State.loadByte (s : State) (a t : Nat) : State :=
  if s.loadsRaced a then
    { s.setTemp t ((Config.freeByte s.draws 0).setWidth 32) with draws := s.draws + 1 }
  else s.setTemp t ((s.mem.read a).setWidth 32)

/-- One host operation, already taken from the program (R110). -/
def execHostOp (op : HostOp) (s : State) : Host.Outcome State Fault Refusal :=
  match op with
  | .wr size offset v =>
    match regAccess size offset with
    | none => .refused .windowAccess
    | some r => s.writeReg r v
  | .rd size offset t =>
    match regAccess size offset with
    | none => .refused .windowAccess
    | some r => .next (s.setTemp t (s.readReg r))
  | .poll size offset mask val =>
    match regAccess size offset with
    | none => .refused .windowAccess
    | some r => if s.readReg r &&& mask = val then .next s else .next { s with program := op :: s.program }
  | .mw8 addr v => s.hostMem addr.toNat 1 (.refused .windowAccess) (.next (s.storeByte addr.toNat v))
  | .mw32 addr v =>
    s.hostMem addr.toNat 4
      (match regAccess .word (addr.setWidth 6) with
        | none => .refused .windowAccess
        | some r => s.writeReg r v)
      (.next (s.storeBytes addr.toNat (wordBytes v)))
  | .mr8 addr t => s.hostMem addr.toNat 1 (.refused .windowAccess) (.next (s.loadByte addr.toNat t))
  | .reset => .next s.resetInput

/-- The host moves: its next operation, or nothing when the program is over (R110, R271; log 17). -/
def State.hostStep (s : State) : Host.Outcome State Fault Refusal :=
  match s.program with
  | [] => .next s
  | op :: rest => execHostOp op { s with program := rest }

/-- One more host operation of the running job's present burst (log 3). -/
def State.countHostOp (s : State) : State :=
  { s with job := s.job.map fun J => { J with prog := { J.prog with hostOps := J.prog.hostOps + 1 } } }

/-- The next host operation is a CMD write of this word, and it is the host's move: the engine is idle (log 2). -/
def State.withCmdWrite (s : State) (w : Word) : State :=
  { s with job := none, program := writeCmd w :: s.program }

end Sys2Proof.Machine
end

