-- ==== Sys2Proof/Machine/Step.lean ====
section
/-! DEFINITION. One step of the machine: a step of the engine or a step of the host (R4). -/

namespace Sys2Proof.Machine

/-- While idle the host moves (R246); while BUSY the engine or the host does (R269; log 3). -/
def step (s : State) : Host.Outcome State Fault Refusal :=
  match s.job with
  | none => s.hostStep
  | some J => if s.engineMoves J then .next (s.engineStep J) else s.countHostOp.hostStep

/-- The state whose very next step is a CMD write of this word, as opcode_table.json numbers it (log 2). -/
def State.withFetchWord (s : State) (nbits w : Nat) : State :=
  s.withCmdWrite (BitVec.ofNat 32 (w % 2 ^ nbits))

end Sys2Proof.Machine
end

