-- ==== Sys2Proof/Safety.lean ====
section
/-! DEFINITION. The terms claims use: the invariants the rules keep (R25, R31, R32, R70), what a job has done so far
compared with the bytes at its acceptance (R75, R167), and the end of a run (R271). -/

namespace Sys2Proof.Machine

/-! ### STATUS, OUT_FMT and OUT_LEN (R25, R31, R44) -/

/-- The invariants of R25: DONE and ERR are never both 1; while BUSY both are 0; without ERR both codes are 0; ERRINFO is
nonzero only for ERRCODE 1; ERRCODE 4 to 15 and ERRINFO 7 to 15 never occur. -/
abbrev State.StatusLegal (s : State) : Prop :=
  ¬(s.status.done = true ∧ s.status.err = true) ∧
  (s.busy = true → s.status.done = false ∧ s.status.err = false) ∧
  (s.status.err = false → s.status.errcode = 0 ∧ s.status.errinfo = 0) ∧
  (s.status.err = true → s.status.errcode ≠ 0) ∧
  (s.status.errinfo ≠ 0 → s.status.errcode = 1) ∧
  s.status.errcode.toNat ≤ 3 ∧ s.status.errinfo.toNat ≤ 6

/-- The values OUT_FMT can take: 0, or the format of one of the four layouts and depths (R31). -/
def fmtWords : List Word := [0x00000000, 0x00010801, 0x00010802, 0x00021001, 0x00021002]

/-- OUT_FMT holds one of its values; while BUSY it and OUT_LEN are 0 (R31, R32, R44). -/
abbrev State.OutLegal (s : State) : Prop :=
  s.outFmt ∈ fmtWords ∧ (s.busy = true → s.outFmt = 0 ∧ s.outLen = 0)

/-! ### The running job (R40, R41, R166) -/

/-- What the checks of ENCODE leave true of a job record (R166): its regions lie in memory, its output is no longer than a
32-bit capacity, and its destination meets no participating source. -/
abbrev JobRecord.Legal (R : JobRecord) : Prop :=
  ¬R.srcOutOfRange ∧ R.len < 2 ^ 32 ∧ R.dst.toNat + R.len ≤ 2 ^ 32 ∧ ¬R.overlaps

/-- The progress of a job is bookkeeping of that job: every byte read is one of its source bytes, read once; every stream
byte written is one of its own, written once, after its sample was read (R41, R167). -/
abbrev Job.ProgressLegal (J : Job) : Prop :=
  (J.prog.fetched.map (·.1)).Nodup ∧ (∀ e ∈ J.prog.fetched, e.1 ∈ J.params.sourceBytes) ∧
  J.prog.written.Nodup ∧ ∀ k ∈ J.prog.written, k < J.params.len ∧ (J.streamByte k).isSome = true

/-- The running job, if there is one, is legal. -/
def State.JobLegal (s : State) : Prop := ∀ J, s.job = some J → J.params.Legal ∧ J.ProgressLegal

/-! ### The whole invariant -/

/-- The host's named values stand in strictly rising order. -/
abbrev TempsSorted (l : List (Nat × Word)) : Prop := l.Pairwise fun c d => c.1 < d.1

/-- The invariant of the machine: memory and the named values are in canonical form, STATUS, OUT_FMT and OUT_LEN hold legal
values, and a running job is legal. -/
def State.Inv (s : State) : Prop :=
  s.mem.wf ∧ TempsSorted s.temps ∧ s.StatusLegal ∧ s.OutLegal ∧ s.JobLegal

/-! ### A job against the memory at its acceptance (R75, R167, R170) -/

/-- What a job has done so far, against the memory `m₀` at its acceptance, as long as no host store has raced with it: the
source bytes still stand, the bytes read are those, a destination byte written holds its final value and one not yet written
its old value (R75, R167). -/
def State.Tracks (m₀ : Memory) (s : State) : Prop :=
  ∀ J, s.job = some J → J.prog.raced = false →
    (∀ a, J.params.inSource a → s.mem.read a = m₀.read a) ∧
    (∀ e ∈ J.prog.fetched, e.2 = m₀.read (J.params.srcBase e.1.1 + e.1.2)) ∧
    (∀ k, k < J.params.len → s.mem.read (J.params.dst.toNat + k) =
      if k ∈ J.prog.written then (encodeStream J.params m₀).getD k 0 else m₀.read (J.params.dst.toNat + k))

/-! ### ENCODE's checks in plain arithmetic (R166, R222) -/

/-- The error R222 reports for an ENCODE in this state, as (ERRCODE, ERRINFO), none when every check of R166 passes; written
in plain arithmetic from R166 and R227. -/
def encodeVerdict (depth nch : Byte) (s : State) : Option (BitVec 4 × BitVec 4) :=
  let n := s.len0.toNat
  let ch := if nch = 1 then 1 else 2
  let L := ch * n * (depth.toNat / 8)
  if depth.toNat ≠ 8 ∧ depth.toNat ≠ 16 then some (2, 0)
  else if nch = 0 then some (1, 1)
  else if ch = 2 ∧ s.len1 ≠ s.len0 then some (1, 2)
  else if 2 ^ 32 < s.src0.toNat + 4 * n ∨ (ch = 2 ∧ 2 ^ 32 < s.src1.toNat + 4 * n) then some (1, 3)
  else if s.dstCap.toNat < L then some (1, 4)
  else if 2 ^ 32 < s.dst.toNat + L then some (1, 5)
  else if 0 < L ∧ ((s.dst.toNat < s.src0.toNat + 4 * n ∧ s.src0.toNat < s.dst.toNat + L) ∨
      (ch = 2 ∧ s.dst.toNat < s.src1.toNat + 4 * n ∧ s.src1.toNat < s.dst.toNat + L)) then some (1, 6)
  else none

/-- The record an ENCODE at this depth and layout latches (R166). -/
def latchedRecord (d : Depth) (lay : Layout) (s : State) : JobRecord :=
  { src0 := s.src0, src1 := s.src1, n := s.len0, layout := lay, depth := d, dst := s.dst }

/-- No region of the job lies where the platform has no memory or has the register window (R72, R82). -/
def launchable (p : Platform) (R : JobRecord) : Prop :=
  ∀ a len, ((a, len) = (R.dst.toNat, R.len) ∨ ∃ b ∈ R.sources, (a, len) = (b, R.srcLen)) →
    ¬Lacks p a len ∧ ¬WindowMeets p a len

/-! ### The registers by how a host write treats them (R21) -/

/-- The registers a host write sets whole (R26 to R30, R33, R34). -/
def fullRegs : List Reg := [.src0, .src1, .len0, .len1, .dst, .dstCap, .rate, .qin]

/-- The registers that ignore a host write (R21, R22, R36). -/
def readOnlyRegs : List Reg := [.id, .status, .outFmt, .outLen, .qout, .reserved]

/-! ### Runs (R271) -/

/-- A run is over: the host program has executed its last operation and BUSY = 0. -/
def State.runOver (s : State) : Prop := s.program = [] ∧ s.busy = false

/-- The step neither faults nor refuses. -/
def State.stepSafe (s : State) : Prop := ∃ t, step s = .next t

end Sys2Proof.Machine
end

