-- ==== Sys2Proof/Certificates/Slice0/Obligations.lean ====
section
/-! DEFINITION. The statements for the provers. Each docstring names the rule it formalises, or says that it is the model's
own choice and names the log entry. -/

open Sys2Proof Sys2Proof.Machine

/-! ### Encoding (30_encoding.md) -/

/-- R100, R103, R106: no bit of a legal word is lost, and every instruction has a legal word. -/
def Obligations.DecodeAndEncodeAgree : Prop :=
  (∀ i : Instr, decode (encodeInstr i) = .ok i) ∧
  (∀ (w : Word) (i : Instr), decode w = .ok i → encodeInstr i = w)

/-- R104: the illegal words are those with OP 4 to 15 or a bit set in [7:4] or [31:24], said by masks. -/
def Obligations.IllegalWordsAreReservedOnes : Prop :=
  ∀ w : Word, (∃ e, decode w = .error e) ↔ w &&& 0xF0 ≠ 0 ∨ w &&& 0xFF000000 ≠ 0 ∨ 4 ≤ (w &&& 0xF).toNat

/-- R101, R105, R111: words written out from the format F0. -/
def Obligations.WordsOfTheFormatDecode : Prop :=
  decode 0x00000000 = .ok (.nop 0 0) ∧
  decode 0x00FFFF00 = .ok (.nop 255 255) ∧
  decode 0x00021001 = .ok (.encode 16 2) ∧
  decode 0x00051002 = .ok (.quant 16 5) ∧
  decode 0x00FFFF03 = .ok (.clear 255 255)

/-- R111: the word of each command mnemonic, the refusal of an operand above 255, and that only WR CMD can write an illegal
word. -/
def Obligations.AssemblerWritesCommandWords : Prop :=
  assemble .nop = some (writeCmd 0x00000000) ∧
  assemble .clear = some (writeCmd 0x00000003) ∧
  (∀ d c : Nat, d ≤ 255 → c ≤ 255 →
    assemble (.encode d c) = some (writeCmd (BitVec.ofNat 32 (c * 2 ^ 16 + d * 2 ^ 8 + 1)))) ∧
  (∀ d : Nat, d ≤ 255 → assemble (.quant d) = some (writeCmd (BitVec.ofNat 32 (d * 2 ^ 8 + 2)))) ∧
  (∀ d c : Nat, 255 < d ∨ 255 < c → assemble (.encode d c) = none) ∧
  (∀ d : Nat, 255 < d → assemble (.quant d) = none) ∧
  (∀ (line : Asm) (w : Word) (e : IllegalWord), assemble line = some (writeCmd w) → decode w = .error e →
    ∃ imm, line = .wr .cmd imm)

/-- R112: the expansions and words of the pseudo-instructions. -/
def Obligations.PseudoInstructionsExpand : Prop :=
  assemble .enc8m = assemble (.encode 8 1) ∧ assemble .enc8m = some (writeCmd 0x00010801) ∧
  assemble .enc8s = assemble (.encode 8 2) ∧ assemble .enc8s = some (writeCmd 0x00020801) ∧
  assemble .enc16m = assemble (.encode 16 1) ∧ assemble .enc16m = some (writeCmd 0x00011001) ∧
  assemble .enc16s = assemble (.encode 16 2) ∧ assemble .enc16s = some (writeCmd 0x00021001) ∧
  assemble .q8 = assemble (.quant 8) ∧ assemble .q8 = some (writeCmd 0x00000802) ∧
  assemble .q16 = assemble (.quant 16) ∧ assemble .q16 = some (writeCmd 0x00001002) ∧
  assemble .wait = assemble (.poll .status 0x1 0x0)

/-- R113: an illegal word is listed as itself; a legal word that differs from another only in the fields its operation
ignores (DEPTH and NCH for NOP and CLEAR, NCH for QUANT) is listed alike; a legal listing assembles to a word with the same
listing. -/
def Obligations.DisassemblyIgnoresUnreadFields : Prop :=
  (∀ (w : Word) (e : IllegalWord), decode w = .error e → disassemble w = .word w) ∧
  (∀ d c : Byte, disassemble (encodeInstr (.nop d c)) = .cmd .nop) ∧
  (∀ d c : Byte, disassemble (encodeInstr (.encode d c)) = .cmd (.encode d.toNat c.toNat)) ∧
  (∀ d c : Byte, disassemble (encodeInstr (.quant d c)) = .cmd (.quant d.toNat)) ∧
  (∀ d c : Byte, disassemble (encodeInstr (.clear d c)) = .cmd .clear) ∧
  (∀ (w : Word) (line : Asm), disassemble w = .cmd line →
    ∃ w', assemble line = some (writeCmd w') ∧ disassemble w' = .cmd line)

/-! ### The commands (40 to 42) -/

/-- R200: a legal NOP accepted while idle changes nothing but the CMD readback. -/
def Obligations.NopRecordsItsWordOnly : Prop :=
  ∀ (depth nch : Byte) (s : State), s.busy = false →
    exec (.nop depth nch) s = .next { s with cmd := encodeInstr (.nop depth nch) }

/-- R201: an accepted CLEAR leaves DONE, ERR, ERRCODE, ERRINFO and DROP 0 and changes nothing else but the readback. -/
def Obligations.ClearZeroesStatus : Prop :=
  ∀ (depth nch : Byte) (s : State), s.busy = false →
    exec (.clear depth nch) s = .next { s with
      cmd := encodeInstr (.clear depth nch)
      status := { done := false, err := false, drop := false, errcode := 0, errinfo := 0 } }

/-- R140 with R132 and R134: an accepted QUANT at depth 8 or 16 writes to QOUT the sign-extended code of the exact
truncation of QIN, sets DONE, and changes nothing else but the readback. -/
def Obligations.QuantWritesTruncatedSample : Prop :=
  ∀ (depth nch : Byte) (d : Depth) (s : State), s.busy = false → depth.toNat = d.bits →
    exec (.quant depth nch) s = .next { s with
      cmd := encodeInstr (.quant depth nch)
      qout := (BitVec.ofInt d.bits (quantizeExact s.qin d)).signExtend 32
      status := { done := true, err := false, drop := s.status.drop, errcode := 0, errinfo := 0 } }

/-- R140, R228: QUANT at any other depth raises UnsupportedFormat and leaves QOUT. -/
def Obligations.QuantUnsupportedDepthRaises : Prop :=
  ∀ (depth nch : Byte) (s : State), s.busy = false → depth.toNat ≠ 8 → depth.toNat ≠ 16 →
    exec (.quant depth nch) s = .next { s with
      cmd := encodeInstr (.quant depth nch)
      status := { done := false, err := true, drop := s.status.drop, errcode := 2, errinfo := 0 } }

/-- R141: the code QUANT writes to the low bits of QOUT is, byte by byte, the code ENCODE packs at the position of any source
sample with the same pattern, for any job at that depth and any memory. -/
def Obligations.QuantAndPackerAgree : Prop :=
  ∀ (depth nch : Byte) (d : Depth) (s : State), s.busy = false → depth.toNat = d.bits →
    ∃ t, exec (.quant depth nch) s = .next t ∧
      ∀ (R : JobRecord) (m : Memory) (i c b : Nat), R.depth = d → i < R.n.toNat → c < R.layout.channels →
        b < d.bits / 8 → m.readWord (R.srcBase c + 4 * i) = s.qin →
        (encodeStream R m)[(i * R.layout.channels + c) * (d.bits / 8) + b]? = some (t.qout.extractLsb' (8 * b) 8)

/-- R166, R222, R227: the first failing check is the one reported; STATUS, the readback, OUT_LEN and OUT_FMT change and
nothing else. -/
def Obligations.EncodeReportsFirstFailingCheck : Prop :=
  ∀ (depth nch : Byte) (s : State) (errcode errinfo : BitVec 4), s.busy = false →
    encodeVerdict depth nch s = some (errcode, errinfo) →
    exec (.encode depth nch) s = .next { s with
      cmd := encodeInstr (.encode depth nch)
      outLen := 0
      outFmt := 0
      status := { done := false, err := true, drop := s.status.drop, errcode := errcode, errinfo := errinfo } }

/-- R166: an ENCODE that passes every check, on a platform whose memory holds its regions, latches the job, sets BUSY and
clears OUT_LEN, OUT_FMT and the result flags; the rest of the state stands. The draw number is the model's (log 13). -/
def Obligations.EncodeLatchesTheJob : Prop :=
  ∀ (depth nch : Byte) (d : Depth) (lay : Layout) (s : State), s.busy = false →
    encodeVerdict depth nch s = none → depth.toNat = d.bits → (lay = .mono ↔ nch = 1) →
    launchable s.platform (latchedRecord d lay s) →
    exec (.encode depth nch) s = .next { s with
      cmd := encodeInstr (.encode depth nch)
      outLen := 0
      outFmt := 0
      status := { done := false, err := false, drop := s.status.drop, errcode := 0, errinfo := 0 }
      job := some { params := latchedRecord d lay s, prog :=
        { draw := s.draws, steps := 0, hostOps := 0, fetched := [], written := [], raced := false } }
      draws := s.draws + 1 }

/-- R72 with X12, R82 with X5 (log 8): a job that passes every check but one of whose regions lacks memory, or else, all of
them having memory, meets the register window, is refused by name. -/
def Obligations.EncodeRefusedOffTheMemory : Prop :=
  ∀ (depth nch : Byte) (d : Depth) (lay : Layout) (s : State) (a len : Nat), s.busy = false →
    encodeVerdict depth nch s = none → depth.toNat = d.bits → (lay = .mono ↔ nch = 1) →
    ((a, len) = (s.dst.toNat, (latchedRecord d lay s).len) ∨
      ∃ b ∈ (latchedRecord d lay s).sources, (a, len) = (b, (latchedRecord d lay s).srcLen)) →
    (Lacks s.platform a len → exec (.encode depth nch) s = .refused .absentMemory) ∧
    (WindowMeets s.platform a len → ¬Lacks s.platform s.dst.toNat (latchedRecord d lay s).len →
      (∀ b ∈ (latchedRecord d lay s).sources, ¬Lacks s.platform b (latchedRecord d lay s).srcLen) →
      exec (.encode depth nch) s = .refused .windowInJob)

/-- R161: any NCH of 2 or more acts as 2, but for the readback. -/
def Obligations.MoreThanTwoChannelsActAsTwo : Prop :=
  ∀ (depth nch : Byte) (s t : State), s.busy = false → 2 ≤ nch.toNat → exec (.encode depth nch) s = .next t →
    exec (.encode depth 2) s = .next { t with cmd := encodeInstr (.encode depth 2) }

/-- R26, R28: a mono ENCODE reads neither SRC1 nor LEN1: with any other values there it comes to the same STATUS, OUT_LEN,
OUT_FMT and phase, and the job reads the same addresses, writes the same destination, encodes the same stream and completes
with the same OUT_FMT. -/
def Obligations.MonoEncodeReadsNoChannelOne : Prop :=
  ∀ (depth : Byte) (s t : State) (src1 len1 : Word), exec (.encode depth 1) s = .next t →
    ∃ t', exec (.encode depth 1) { s with src1 := src1, len1 := len1 } = .next t' ∧
      t'.readReg .status = t.readReg .status ∧ t'.outLen = t.outLen ∧ t'.outFmt = t.outFmt ∧ t'.mem = t.mem ∧
      ∀ J, s.busy = false → t.job = some J → ∃ J', t'.job = some J' ∧ J'.params.sources = J.params.sources ∧
        J'.params.len = J.params.len ∧ J'.params.dst = J.params.dst ∧ J'.params.outFmt = J.params.outFmt ∧ ∀ m, encodeStream J'.params m = encodeStream J.params m

/-- R225, with R24: a CMD write of any word while BUSY changes nothing but DROP. -/
def Obligations.BusyDropsEveryWord : Prop :=
  (∀ (w : Word) (s : State), s.busy = true →
    s.writeCmdReg w = .next { s with status := { s.status with drop := true } }) ∧
  (∀ (i : Instr) (s : State), s.busy = true → exec i s = .next { s with status := { s.status with drop := true } })

/-- R25, R225: DROP is sticky: no engine step changes it, and a host operation that clears it is the reset input or a
CLEAR accepted while idle (which its readback shows). -/
def Obligations.OnlyClearAndResetClearDrop : Prop :=
  (∀ (s : State) (J : Job), (s.engineStep J).status.drop = s.status.drop) ∧
  (∀ (op : HostOp) (s t : State), execHostOp op s = .next t → s.status.drop = true → t.status.drop = false →
    op = .reset ∨ (s.busy = false ∧ ∃ depth nch, t.cmd = encodeInstr (.clear depth nch)))

/-- R104, R221: an illegal word written while idle raises IllegalCommand and changes nothing but STATUS and the readback. -/
def Obligations.IllegalWordRaises : Prop :=
  ∀ (w : Word) (s : State), s.busy = false → (w &&& 0xF0 ≠ 0 ∨ w &&& 0xFF000000 ≠ 0 ∨ 4 ≤ (w &&& 0xF).toNat) →
    s.writeCmdReg w = .next { s with
      cmd := w
      status := { done := false, err := true, drop := s.status.drop, errcode := 3, errinfo := 0 } }

/-- The frame of every command: R44 for the registers; R140, R200, R201 and R223 for memory, which no command writes in its
acceptance step; R166 for the job, which only ENCODE starts. That the host's program, its named values and the platform stand,
and that only ENCODE takes a draw, is the model's (log 2, 8, 13). -/
def Obligations.CommandsKeepWhatTheyDoNotWrite : Prop :=
  ∀ (i : Instr) (s t : State), exec i s = .next t →
    (t.ie = s.ie ∧ t.src0 = s.src0 ∧ t.src1 = s.src1 ∧ t.len0 = s.len0 ∧ t.len1 = s.len1 ∧ t.dst = s.dst ∧
      t.dstCap = s.dstCap ∧ t.rate = s.rate ∧ t.qin = s.qin) ∧
    (t.program = s.program ∧ t.temps = s.temps ∧ t.platform = s.platform) ∧
    (∀ a, t.mem.read a = s.mem.read a) ∧
    ((∀ depth nch, i ≠ .quant depth nch) → t.qout = s.qout) ∧
    ((∀ depth nch, i ≠ .encode depth nch) →
      t.outLen = s.outLen ∧ t.outFmt = s.outFmt ∧ t.job = s.job ∧ t.draws = s.draws)

/-- R33: RATE is read by no command and by no engine step: two states that differ only in RATE go on differing only there. -/
def Obligations.RateHasNoEffect : Prop :=
  (∀ (i : Instr) (s t : State) (v : Word), exec i s = .next t →
    exec i { s with rate := v } = .next { t with rate := v }) ∧
  (∀ (i : Instr) (s : State) (v : Word) (r : Refusal), exec i s = .refused r →
    exec i { s with rate := v } = .refused r) ∧
  (∀ (s : State) (J : Job) (v : Word), { s with rate := v }.engineStep J = { s.engineStep J with rate := v })

/-! ### Steps and host operations (R4, R110, R270) -/

/-- R24, R103: when the host's next operation is a CMD write of a word that decodes to i, the step is exec of i on the state
with that operation taken; while BUSY it is that when it is the host's turn (the operation is counted: log 3), else it is an
engine step and the operation stays next. The last clause is the interface's. -/
def Obligations.StepRunsTheDecodedCommand : Prop :=
  ∀ (s : State) (w : Word) (i : Instr) (rest : List HostOp), decode w = .ok i → s.program = writeCmd w :: rest →
    (s.job = none → step s = exec i { s with program := rest }) ∧
    (∀ J, s.job = some J → step s =
      if s.engineMoves J then .next (s.engineStep J) else exec i { s.countHostOp with program := rest }) ∧
    step (s.withFetchWord 32 w.toNat) = exec i { s with job := none }

/-- R246, R271: an idle machine whose host program is over stays as it is. -/
def Obligations.FinishedRunStandsStill : Prop :=
  ∀ s : State, s.runOver → step s = .next s

/-- R21 to R36: the offset of every register; a read of a register names its value and changes nothing else; ID, CTRL,
STATUS by its bits, and every other register by its field. -/
def Obligations.RegisterReadsReturnTheirFields : Prop :=
  (Reg.id.offset = 0x00 ∧ Reg.ctrl.offset = 0x04 ∧ Reg.cmd.offset = 0x08 ∧ Reg.status.offset = 0x0C ∧
    Reg.src0.offset = 0x10 ∧ Reg.src1.offset = 0x14 ∧ Reg.len0.offset = 0x18 ∧ Reg.len1.offset = 0x1C ∧
    Reg.dst.offset = 0x20 ∧ Reg.dstCap.offset = 0x24 ∧ Reg.outFmt.offset = 0x28 ∧ Reg.outLen.offset = 0x2C ∧
    Reg.rate.offset = 0x30 ∧ Reg.qin.offset = 0x34 ∧ Reg.qout.offset = 0x38 ∧ Reg.reserved.offset = 0x3C) ∧
  (∀ (s : State) (r : Reg) (t : Nat), ∃ l, execHostOp (.rd .word r.offset t) s = .next { s with temps := l } ∧
    l.lookup t = some (s.readReg r) ∧ ∀ t', t' ≠ t → l.lookup t' = s.temps.lookup t') ∧
  (∀ s : State, s.readReg .id = 0x00010203 ∧ s.readReg .reserved = 0 ∧
    s.readReg .ctrl = (if s.ie then 1 else 0) ∧
    (s.readReg .status).getLsbD 0 = s.busy ∧ (s.readReg .status).getLsbD 1 = s.status.done ∧
    (s.readReg .status).getLsbD 2 = s.status.err ∧ (s.readReg .status).getLsbD 3 = s.status.drop ∧
    (s.readReg .status).extractLsb' 4 4 = 0 ∧ (s.readReg .status).extractLsb' 8 4 = s.status.errcode ∧
    (s.readReg .status).extractLsb' 12 4 = s.status.errinfo ∧ (s.readReg .status).extractLsb' 16 16 = 0) ∧
  (∀ s : State, s.readReg .cmd = s.cmd ∧ s.readReg .src0 = s.src0 ∧ s.readReg .src1 = s.src1 ∧
    s.readReg .len0 = s.len0 ∧ s.readReg .len1 = s.len1 ∧ s.readReg .dst = s.dst ∧ s.readReg .dstCap = s.dstCap ∧
    s.readReg .outFmt = s.outFmt ∧ s.readReg .outLen = s.outLen ∧ s.readReg .rate = s.rate ∧
    s.readReg .qin = s.qin ∧ s.readReg .qout = s.qout)

/-- R21, R23, R26 to R36: a write sets a parameter register whole, bit 0 of CTRL only, and no read-only register; no other
register, memory byte or job changes with it. -/
def Obligations.RegisterWritesSetTheirRegister : Prop :=
  ∀ (s : State) (v : Word),
    (∀ r ∈ fullRegs, ∃ t, execHostOp (.wr .word r.offset v) s = .next t ∧ t.readReg r = v ∧
      (∀ r', r' ≠ r → t.readReg r' = s.readReg r') ∧ t.mem = s.mem ∧ t.job = s.job ∧ t.program = s.program) ∧
    (∃ t, execHostOp (.wr .word Reg.ctrl.offset v) s = .next t ∧ t.readReg .ctrl = v &&& 1 ∧
      (∀ r', r' ≠ .ctrl → t.readReg r' = s.readReg r') ∧ t.mem = s.mem ∧ t.job = s.job ∧ t.program = s.program) ∧
    (∀ r ∈ readOnlyRegs, execHostOp (.wr .word r.offset v) s = .next s)

/-- R21 with X4 (log 9): an access that is not 32-bit, or not at a multiple of 4, is refused. -/
def Obligations.OddWindowAccessIsRefused : Prop :=
  ∀ (s : State) (size : AccessSize) (offset : BitVec 6) (v mask val : Word) (t : Nat),
    size ≠ .word ∨ offset.toNat % 4 ≠ 0 →
    execHostOp (.wr size offset v) s = .refused .windowAccess ∧
    execHostOp (.rd size offset t) s = .refused .windowAccess ∧
    execHostOp (.poll size offset mask val) s = .refused .windowAccess

/-- R110: POLL repeats its read until the masked value matches (one read a step), here of an idle block. -/
def Obligations.PollRepeatsUntilMatch : Prop :=
  ∀ (s : State) (r : Reg) (mask val : Word) (rest : List HostOp), s.job = none →
    s.program = .poll .word r.offset mask val :: rest →
    (s.readReg r &&& mask = val → step s = .next { s with program := rest }) ∧
    (s.readReg r &&& mask ≠ val → step s = .next s)

/-- R71, R110: a host store of a word writes its four bytes least significant first, changes no other byte and, of an idle
block, nothing else; the little-endian word read back is the word written. -/
def Obligations.HostWordStoreIsLittleEndian : Prop :=
  ∀ (s : State) (addr v : Word), s.platform.absent = [] → s.platform.sharedSpace = false → s.job = none →
    addr.toNat + 4 ≤ 2 ^ 32 →
    ∃ m, execHostOp (.mw32 addr v) s = .next { s with mem := m } ∧
      (∀ k, k < 4 → (m.read (addr.toNat + k)).toNat = v.toNat / 2 ^ (8 * k) % 2 ^ 8) ∧
      (∀ a, a < addr.toNat ∨ addr.toNat + 4 ≤ a → m.read a = s.mem.read a) ∧
      m.readWord addr.toNat = v

/-- R71: a word read from memory is the sum of its bytes, the byte at the lowest address least significant. -/
def Obligations.WordReadIsLittleEndianSum : Prop :=
  ∀ (m : Memory) (a : Nat), (m.readWord a).toNat =
    (m.read a).toNat + (m.read (a + 1)).toNat * 2 ^ 8 + (m.read (a + 2)).toNat * 2 ^ 16 + (m.read (a + 3)).toNat * 2 ^ 24

/-- R110: a host byte store and a later load of that byte, with the block idle between them; t holds the byte zero-extended
(log 12). -/
def Obligations.HostByteStoreThenLoad : Prop :=
  ∀ (s : State) (addr : Word) (b : Byte) (t : Nat), s.platform.absent = [] → s.platform.sharedSpace = false →
    s.job = none →
    ∃ u u', execHostOp (.mw8 addr b) s = .next u ∧ execHostOp (.mr8 addr t) u = .next u' ∧
      u'.temps.lookup t = some (b.setWidth 32) ∧ u'.mem = u.mem ∧
      ∀ a, a ≠ addr.toNat → u.mem.read a = s.mem.read a

/-- R70; the stop is the model's (log 10): a host word store that passes address 0xFFFF_FFFF faults. -/
def Obligations.StorePastTopOfMemoryFaults : Prop :=
  ∀ (s : State) (addr v : Word), 2 ^ 32 < addr.toNat + 4 → execHostOp (.mw32 addr v) s = .fault .noSuchAddress

/-! ### Reset and the interrupt line (R42, R43, R260, R261) -/

/-- R43: the registers after reset, of the reset state and of the reset input in any state; no job, irq low, and, when no job
runs, memory unchanged. -/
def Obligations.ResetGivesEveryRegisterItsValue : Prop :=
  (State.reset.readReg .id = 0x00010203 ∧ (∀ r, r ≠ .id → State.reset.readReg r = 0) ∧ State.reset.job = none ∧
    State.reset.irq = false) ∧
  (∀ s : State, ∃ t, execHostOp .reset s = .next t ∧ t.readReg .id = 0x00010203 ∧
    (∀ r, r ≠ .id → t.readReg r = 0) ∧ t.job = none ∧ t.irq = false ∧ (s.job = none → t.mem = s.mem))

/-- R261: a reset during a job changes no byte outside the job's destination region, so no source byte either. -/
def Obligations.ResetDuringJobSparesOtherBytes : Prop :=
  ∀ (s t : State) (J : Job), s.job = some J → execHostOp .reset s = .next t →
    (∀ a, ¬J.params.inDest a → t.mem.read a = s.mem.read a) ∧
    (J.params.Legal → ∀ a, J.params.inSource a → t.mem.read a = s.mem.read a)

/-- R42: irq is IE and (DONE or ERR), read from the register values; DROP does not drive it; it is low after reset. -/
def Obligations.IrqIsEnabledDoneOrError : Prop :=
  (∀ s : State, s.irq = true ↔
    (s.readReg .ctrl).getLsbD 0 = true ∧
      ((s.readReg .status).getLsbD 1 = true ∨ (s.readReg .status).getLsbD 2 = true)) ∧
  (∀ (s : State) (b : Bool), { s with status := { s.status with drop := b } }.irq = s.irq) ∧
  State.reset.irq = false

/-! ### The quantizer (R130 to R136) -/

/-- R130: a NaN of any sign and payload quantizes to 0 at both depths. -/
def Obligations.NanQuantizesToZero : Prop :=
  ∀ (f : Word) (d : Depth), (f >>> 23) &&& 0xFF = 0xFF → f &&& 0x7FFFFF ≠ 0 → quantize f d = 0

/-- R132, R133: the integer procedure equals clamp, scale and truncation toward zero over the exact rationals. -/
def Obligations.IntegerProcedureIsExactTruncation : Prop :=
  ∀ (f : Word) (d : Depth), quantize f d = quantizeExact f d

/-- R134: the quantized integer lies in [-32767, 32767] or [-127, 127], its code is its residue modulo 2^w and represents
it, and the most negative code is never produced; with the rule's examples. -/
def Obligations.QuantizedIntegerFitsItsCode : Prop :=
  (∀ f : Word, -32767 ≤ quantize f .d16 ∧ quantize f .d16 ≤ 32767 ∧ -127 ≤ quantize f .d8 ∧ quantize f .d8 ≤ 127) ∧
  (∀ (f : Word) (d : Depth),
    ((code d (quantize f d)).toNat : Int) = quantize f d % 2 ^ d.bits ∧
    (code d (quantize f d)).toInt = quantize f d ∧ code d (quantize f d) ≠ BitVec.intMin d.bits) ∧
  code .d16 (-32767) = 0x8001#16 ∧ code .d16 16383 = 0x3FFF#16 ∧ code .d8 (-127) = 0x81#8 ∧ code .d8 127 = 0x7F#8

/-- R135: flipping the sign bit of any pattern negates the quantized integer; with the table of corner cases. -/
def Obligations.SignFlipNegatesSample : Prop :=
  (∀ (f : Word) (d : Depth), quantize (f ^^^ 0x80000000) d = -quantize f d) ∧
  (∀ c ∈ [((0x00000000 : Word), (0 : Int), (0 : Int)), (0x80000000, 0, 0), (0x3F800000, 32767, 127),
      (0xBF800000, -32767, -127), (0x3FC00000, 32767, 127), (0x7F800000, 32767, 127), (0xFF800000, -32767, -127),
      (0x7F7FFFFF, 32767, 127), (0x3F7FFFFF, 32766, 126), (0x00000001, 0, 0), (0x7FC00000, 0, 0)],
    quantize c.1 .d16 = c.2.1 ∧ quantize c.1 .d8 = c.2.2)

/-- R132, derived: quantization keeps the order of finite samples. -/
def Obligations.QuantizationIsMonotone : Prop :=
  ∀ (f g : Word) (d : Depth) (x y : ℚ), sampleValue f = some (.fin x) → sampleValue g = some (.fin y) → x ≤ y →
    quantize f d ≤ quantize g d

/-! ### The byte stream (R162 to R165, R170) -/

/-- R162 to R165: the stream has `ch * n * bps` bytes, and bytes k to k + bps - 1 with `k = (i * ch + c) * bps` are the code
of sample i of channel c, least significant byte first. -/
def Obligations.StreamPlacesEverySample : Prop :=
  ∀ (R : JobRecord) (m : Memory),
    (encodeStream R m).length = R.layout.channels * R.n.toNat * (R.depth.bits / 8) ∧
    ∀ i c b, i < R.n.toNat → c < R.layout.channels → b < R.depth.bits / 8 →
      (encodeStream R m)[(i * R.layout.channels + c) * (R.depth.bits / 8) + b]? =
        some (BitVec.ofNat 8
          ((code R.depth (quantize (m.readWord (R.srcBase c + 4 * i)) R.depth)).toNat / 2 ^ (8 * b)))

/-- R163: the positions tile the stream: every stream offset is byte b of exactly one sample of one channel. -/
def Obligations.PositionsTileTheStream : Prop :=
  ∀ (R : JobRecord) (k : Nat), k < R.len →
    ∃! p : Nat × Nat × Nat, p.1 < R.n.toNat ∧ p.2.1 < R.ch ∧ p.2.2 < R.bps ∧ R.position p.1 p.2.1 + p.2.2 = k

/-- R170, R74: the stream depends on the source bytes only, so a job whose destination meets no source, repeated after any
writes to its destination, gives the same bytes. -/
def Obligations.EncodingTwiceGivesTheSameBytes : Prop :=
  (∀ (R : JobRecord) (m m' : Memory), (∀ a, R.inSource a → m.read a = m'.read a) → encodeStream R m = encodeStream R m') ∧
  (∀ (R : JobRecord) (m : Memory) (ws : List (Nat × Byte)), R.Legal → (∀ w ∈ ws, w.1 < R.len) →
    encodeStream R (m.writeAll R.dst.toNat ws) = encodeStream R m)

/-! ### Jobs (R75, R167 to R170, R266, R269) -/

/-- R167, R168, R170, R269: from the acceptance of an ENCODE that starts a job, with no further host operation, the machine
completes the job after finitely many steps, at least one, whatever the job's free draws are (the engine moves at once when the host's program is over: log 3): the destination holds the
encoded stream of the memory at acceptance, every other byte stands, OUT_LEN, OUT_FMT and DONE are set, and nothing else has
changed. -/
def Obligations.EncodeCompletesWithItsStream : Prop :=
  ∀ (depth nch : Byte) (s s₁ : State) (J : Job), s.busy = false → s.program = [] →
    exec (.encode depth nch) s = .next s₁ → s₁.job = some J →
    ∃ k m, 1 ≤ k ∧
      core.run k s₁ = .next { s₁ with
        job := none
        mem := m
        outLen := BitVec.ofNat 32 J.params.len
        outFmt := J.params.outFmt
        status := { s₁.status with done := true } } ∧
      (∀ j, j < J.params.len → some (m.read (J.params.dst.toNat + j)) = (encodeStream J.params s.mem)[j]?) ∧
      (∀ a, ¬J.params.inDest a → m.read a = s.mem.read a)

/-- R75, R167: every step of either agent keeps the account of a running job against the memory at its acceptance, and a job
accepted in a step starts with that account. -/
def Obligations.StepKeepsJobTracking : Prop :=
  ∀ (m₀ : Memory) (s s' : State), s.Inv → step s = .next s' →
    (s.busy = true → s.Tracks m₀ → s'.Tracks m₀) ∧ (s.busy = false → s'.Tracks s.mem)

/-- R168, R170: whatever the host does meanwhile, the step that completes a job no host store has raced with leaves the
encoded stream of the memory at acceptance in the destination, and OUT_LEN and OUT_FMT describe it. -/
def Obligations.UnracedCompletionHoldsTheStream : Prop :=
  ∀ (m₀ : Memory) (s s' : State) (J : Job), s.Inv → s.Tracks m₀ → s.job = some J → J.prog.raced = false →
    step s = .next s' → s'.busy = false → s'.status.done = true →
    (∀ j, j < J.params.len → some (s'.mem.read (J.params.dst.toNat + j)) = (encodeStream J.params m₀)[j]?) ∧
    (∀ a, ¬J.params.inDest a → s'.mem.read a = s.mem.read a) ∧
    s'.outLen.toNat = J.params.layout.channels * J.params.n.toNat * (J.params.depth.bits / 8) ∧
    s'.outFmt.toNat = J.params.layout.channels + J.params.depth.bits * 2 ^ 8 + (J.params.depth.bits / 8) * 2 ^ 16

/-- R75, first bullet: a host load of a destination byte of an unraced job returns the byte before the job or the final
byte. That the value named is that byte zero-extended to 32 bits is the model's (log 12). -/
def Obligations.EarlyLoadSeesOldOrFinalByte : Prop :=
  ∀ (m₀ : Memory) (s u : State) (J : Job) (k t : Nat) (addr : Word), s.Tracks m₀ → s.job = some J →
    J.prog.raced = false → k < J.params.len → addr.toNat = J.params.dst.toNat + k →
    execHostOp (.mr8 addr t) s = .next u →
    u.temps.lookup t = some ((m₀.read addr.toNat).setWidth 32) ∨
    u.temps.lookup t = some (((encodeStream J.params m₀).getD k 0).setWidth 32)

/-- R167, R168: an engine step writes no byte outside the destination and no register but, at completion, OUT_LEN, OUT_FMT
and STATUS; it keeps the job's record. -/
def Obligations.EngineStepStaysInItsRegion : Prop :=
  ∀ (s : State) (J : Job), s.job = some J → s.engineMoves J = true →
    ∃ t, step s = .next t ∧
      (∀ a, ¬J.params.inDest a → t.mem.read a = s.mem.read a) ∧
      (∀ r, r ≠ .outLen → r ≠ .outFmt → r ≠ .status → t.readReg r = s.readReg r) ∧
      t.program = s.program ∧ t.temps = s.temps ∧
      ((∃ J', t.job = some J' ∧ J'.params = J.params ∧ t.readReg .outLen = s.readReg .outLen ∧
          t.readReg .outFmt = s.readReg .outFmt ∧ t.status = s.status) ∨
        (t.job = none ∧ t.outLen = BitVec.ofNat 32 J.params.len ∧ t.outFmt = J.params.outFmt ∧
          t.status = { s.status with done := true }))

/-- R75: a host store of a byte or of a word during a job is noted as a race exactly when a byte of it hits the job's
destination or a participating source; it stores its bytes, the word's least significant first (R71), changes no other byte,
and leaves the rest of the state as it is (the note is the model's, log 6). -/
def Obligations.HostStoreRacesOnlyInTheRegions : Prop :=
  ∀ (s : State) (J : Job) (addr : Word), s.platform.absent = [] → s.platform.sharedSpace = false → s.job = some J →
    (∀ b : Byte, ∃ m J', execHostOp (.mw8 addr b) s = .next { s with mem := m, job := some J' } ∧
      m.read addr.toNat = b ∧ (∀ a, a ≠ addr.toNat → m.read a = s.mem.read a) ∧
      (J.params.inDest addr.toNat ∨ J.params.inSource addr.toNat →
        J' = { J with prog := { J.prog with raced := true } }) ∧
      (¬(J.params.inDest addr.toNat ∨ J.params.inSource addr.toNat) → J' = J)) ∧
    (∀ v : Word, addr.toNat + 4 ≤ 2 ^ 32 →
      ∃ m J', execHostOp (.mw32 addr v) s = .next { s with mem := m, job := some J' } ∧
        (∀ k, k < 4 → (m.read (addr.toNat + k)).toNat = v.toNat / 2 ^ (8 * k) % 2 ^ 8) ∧
        (∀ a, a < addr.toNat ∨ addr.toNat + 4 ≤ a → m.read a = s.mem.read a) ∧
        ((∃ k, k < 4 ∧ (J.params.inDest (addr.toNat + k) ∨ J.params.inSource (addr.toNat + k))) →
          J' = { J with prog := { J.prog with raced := true } }) ∧
        ((∀ k, k < 4 → ¬(J.params.inDest (addr.toNat + k) ∨ J.params.inSource (addr.toNat + k))) → J' = J))

/-- R269, with R110: a host that WAITs on any running job gets past it: after finitely many steps the wait is over, BUSY is 0
and DONE is 1. It leans on the finite bursts of host operations (log 3) and on one read of a POLL a step (log 21). -/
def Obligations.WaitAlwaysEnds : Prop :=
  ∀ (s : State) (J : Job), s.job = some J → s.program = [expand .wait] →
    ∃ k t, core.run k s = .next t ∧ t.runOver ∧ t.status.done = true

/-! ### Invariants (R25, R31, R32, R40, R70) -/

/-- The invariant holds after reset. -/
def Obligations.ResetMeetsTheInvariant : Prop := State.reset.Inv

/-- Every step keeps the invariant: canonical memory inside the 2^32-byte space, the invariants of R25, the values of OUT_FMT
(R31), OUT_LEN and OUT_FMT 0 while BUSY (R44), and a job within its checks (R166) that reads and writes each byte once
(R167). -/
def Obligations.StepKeepsTheInvariant : Prop :=
  ∀ s s' : State, s.Inv → step s = .next s' → s'.Inv

/-- R25: every step keeps STATUS legal, of any state with a legal STATUS. -/
def Obligations.StepKeepsStatusLegal : Prop :=
  ∀ s s' : State, s.StatusLegal → step s = .next s' → s'.StatusLegal
end

