-- ==== Sys2Proof/Laws/Memory.lean ====
section
/-! SUPPORT. The laws of sparse cells and of memory: read after write, and every operation keeps the canonical form. -/

namespace Sys2Proof.Machine

/-! ### Cells -/

section cells
variable {α : Type}

/-- Looking up in a list that begins with a cell. -/
theorem lookup_cell (c : Nat × α) (l : List (Nat × α)) (a : Nat) :
    (c :: l).lookup a = if a = c.1 then some c.2 else l.lookup a := by
  obtain ⟨k, w⟩ := c
  rw [List.lookup_cons]
  rcases eq_or_ne a k with h | h
  · simp [h]
  · simp [h, beq_eq_false_iff_ne.mpr h]

@[simp] theorem cellsSet_lookup_same (l : List (Nat × α)) (a : Nat) (v : α) : (cellsSet l a v).lookup a = some v := by
  induction l with
  | nil => simp [cellsSet]
  | cons c rest ih =>
    unfold cellsSet
    split_ifs with h₁ h₂ <;> simp [lookup_cell, *]

theorem cellsSet_lookup_ne (l : List (Nat × α)) {a b : Nat} (v : α) (h : b ≠ a) :
    (cellsSet l a v).lookup b = l.lookup b := by
  induction l with
  | nil => simp [cellsSet, lookup_cell, h]
  | cons c rest ih =>
    unfold cellsSet
    split_ifs with h₁ h₂
    · simp [lookup_cell, h]
    · subst h₂; simp [lookup_cell, h]
    · simp [lookup_cell, ih]

@[simp] theorem cellsErase_lookup_same (l : List (Nat × α)) (a : Nat) : (cellsErase l a).lookup a = none := by
  induction l with
  | nil => rfl
  | cons c rest ih =>
    rw [cellsErase, List.filter_cons]
    split_ifs with h
    · rw [lookup_cell, if_neg (fun he => by simp [he] at h)]; exact ih
    · exact ih

theorem cellsErase_lookup_ne (l : List (Nat × α)) {a b : Nat} (h : b ≠ a) :
    (cellsErase l a).lookup b = l.lookup b := by
  induction l with
  | nil => rfl
  | cons c rest ih =>
    rw [cellsErase, List.filter_cons]
    split_ifs with hc
    · rw [lookup_cell, lookup_cell, ← ih]; rfl
    · rw [lookup_cell, if_neg (fun he => hc (by simpa [← he] using h)), ← ih]; rfl

/-- What `cellsSet` can list: the new cell or an old one. -/
theorem mem_cellsSet {l : List (Nat × α)} {a : Nat} {v : α} {c : Nat × α} (h : c ∈ cellsSet l a v) :
    c = (a, v) ∨ c ∈ l := by
  induction l with
  | nil => simpa [cellsSet] using h
  | cons d rest ih =>
    unfold cellsSet at h
    split_ifs at h with h₁ h₂
    · simpa using h
    · rcases List.mem_cons.mp h with h | h
      · exact .inl h
      · exact .inr (List.mem_cons_of_mem _ h)
    · rcases List.mem_cons.mp h with h | h
      · exact .inr (h ▸ List.mem_cons_self)
      · exact (ih h).imp_right (List.mem_cons_of_mem _)

theorem cellsSet_sorted {l : List (Nat × α)} (a : Nat) (v : α) (h : l.Pairwise fun c d => c.1 < d.1) :
    (cellsSet l a v).Pairwise fun c d => c.1 < d.1 := by
  induction l with
  | nil => simp [cellsSet]
  | cons d rest ih =>
    obtain ⟨hd, hrest⟩ := List.pairwise_cons.mp h
    unfold cellsSet
    split_ifs with h₁ h₂
    · refine List.pairwise_cons.mpr ⟨fun c hc => ?_, h⟩
      rcases List.mem_cons.mp hc with rfl | hc
      · exact h₁
      · exact h₁.trans (hd c hc)
    · subst h₂; exact List.pairwise_cons.mpr ⟨hd, hrest⟩
    · refine List.pairwise_cons.mpr ⟨fun c hc => ?_, ih hrest⟩
      rcases mem_cellsSet hc with rfl | hc
      · simp; omega
      · exact hd c hc

theorem cellsErase_sorted {l : List (Nat × α)} (a : Nat) (h : l.Pairwise fun c d => c.1 < d.1) :
    (cellsErase l a).Pairwise fun c d => c.1 < d.1 := h.filter _

end cells

/-! ### Bytes of memory -/

@[simp] theorem Memory.read_nil (a : Nat) : Memory.read [] a = unlistedByte := rfl

@[simp] theorem Memory.read_write_same (m : Memory) (a : Nat) (b : Byte) : (m.write a b).read a = b := by
  unfold Memory.write Memory.read
  split_ifs with h <;> simp [h]

theorem Memory.read_write_ne (m : Memory) {a c : Nat} (b : Byte) (h : c ≠ a) : (m.write a b).read c = m.read c := by
  unfold Memory.write Memory.read
  split_ifs
  · rw [cellsErase_lookup_ne _ h]
  · rw [cellsSet_lookup_ne _ _ h]

/-- Reading after a write, at any address. -/
theorem Memory.read_write (m : Memory) (a c : Nat) (b : Byte) :
    (m.write a b).read c = if c = a then b else m.read c := by
  split_ifs with h
  · subst h; simp
  · exact m.read_write_ne b h

theorem Memory.wf_nil : Memory.wf [] := by simp [Memory.wf]

/-- A write inside the space keeps the canonical form. -/
theorem Memory.write_wf {m : Memory} (h : m.wf) {a : Nat} (ha : a < 2 ^ 32) (b : Byte) : (m.write a b).wf := by
  unfold Memory.write
  split_ifs with hb
  · exact ⟨cellsErase_sorted a h.1, fun c hc => h.2 c (List.mem_filter.mp hc).1⟩
  · refine ⟨cellsSet_sorted a b h.1, fun c hc => ?_⟩
    rcases mem_cellsSet hc with rfl | hc
    · exact ⟨ha, hb⟩
    · exact h.2 c hc

/-- A key below every listed one is not listed. -/
theorem lookup_below {α : Type} {k : Nat} {l : List (Nat × α)} (h : ∀ e ∈ l, k < e.1) : l.lookup k = none := by
  induction l with
  | nil => rfl
  | cons e l ih =>
    rw [lookup_cell, if_neg (Nat.ne_of_lt (h e List.mem_cons_self))]
    exact ih fun e he => h e (List.mem_cons_of_mem _ he)

theorem Memory.read_cons (c : Host.Cell) (m : Memory) (a : Nat) :
    Memory.read (c :: m) a = if a = c.1 then c.2 else Memory.read m a := by
  unfold Memory.read
  rw [lookup_cell]
  split_ifs <;> rfl

/-- An address below every listed one reads as unlisted. -/
theorem Memory.read_below {m : Memory} {a : Nat} (h : ∀ e ∈ m, a < e.1) : m.read a = unlistedByte := by
  rw [Memory.read, lookup_below h]; rfl

/-- Two canonical memories that read alike at every address are equal data. -/
theorem Memory.ext_of_wf {m m' : Memory} (h : m.wf) (h' : m'.wf) (hr : ∀ a, m.read a = m'.read a) : m = m' := by
  induction m generalizing m' with
  | nil =>
    cases m' with
    | nil => rfl
    | cons d rest' => exact absurd (by simpa [Memory.read_cons] using (hr d.1).symm) (h'.2 d List.mem_cons_self).2
  | cons c rest ih =>
    cases m' with
    | nil => exact absurd (by simpa [Memory.read_cons] using hr c.1) (h.2 c List.mem_cons_self).2
    | cons d rest' =>
      obtain ⟨hc, hrest⟩ := List.pairwise_cons.mp h.1
      obtain ⟨hd, hrest'⟩ := List.pairwise_cons.mp h'.1
      have below : ∀ {k : Nat} {e : Host.Cell} {l : Memory}, k < e.1 → (∀ f ∈ l, e.1 < f.1) → ∀ f ∈ e :: l, k < f.1 := by
        intro k e l hk hl f hf
        rcases List.mem_cons.mp hf with rfl | hf
        · exact hk
        · exact hk.trans (hl f hf)
      have hcd : c.1 = d.1 := by
        rcases Nat.lt_trichotomy c.1 d.1 with hlt | heq | hlt
        · exact absurd (by simpa [Memory.read_cons c rest, Memory.read_below (below hlt hd)] using hr c.1)
            (h.2 c List.mem_cons_self).2
        · exact heq
        · exact absurd (by simpa [Memory.read_cons d rest', Memory.read_below (below hlt hc)] using (hr d.1).symm)
            (h'.2 d List.mem_cons_self).2
      have hv : c.2 = d.2 := by simpa [Memory.read_cons, hcd] using hr c.1
      have hrec : rest = rest' := by
        refine ih ⟨hrest, fun e he => h.2 e (List.mem_cons_of_mem _ he)⟩
          ⟨hrest', fun e he => h'.2 e (List.mem_cons_of_mem _ he)⟩ fun a => ?_
        rcases eq_or_ne a c.1 with rfl | hne
        · rw [Memory.read_below hc, Memory.read_below (hcd ▸ hd)]
        · simpa [Memory.read_cons, hne, hcd ▸ hne] using hr a
      rw [hrec, Prod.ext hcd hv]

/-! ### Writing stream bytes -/

@[simp] theorem Memory.writeAll_nil (m : Memory) (base : Nat) : m.writeAll base [] = m := rfl

@[simp] theorem Memory.writeAll_cons (m : Memory) (base : Nat) (w : Nat × Byte) (ws : List (Nat × Byte)) :
    m.writeAll base (w :: ws) = (m.write (base + w.1) w.2).writeAll base ws := rfl

/-- An address at no offset of the list is left alone. -/
theorem Memory.read_writeAll_off (m : Memory) (base : Nat) (ws : List (Nat × Byte)) (a : Nat)
    (h : ∀ w ∈ ws, a ≠ base + w.1) : (m.writeAll base ws).read a = m.read a := by
  induction ws generalizing m with
  | nil => rfl
  | cons w ws ih =>
    rw [Memory.writeAll_cons, ih _ fun w hw => h w (List.mem_cons_of_mem _ hw),
      Memory.read_write_ne _ _ (h w List.mem_cons_self)]

/-- A byte of the list stands at its offset, when no offset is listed twice. -/
theorem Memory.read_writeAll_on (m : Memory) (base : Nat) (ws : List (Nat × Byte)) (hn : (ws.map (·.1)).Nodup)
    {k : Nat} {b : Byte} (h : (k, b) ∈ ws) : (m.writeAll base ws).read (base + k) = b := by
  induction ws generalizing m with
  | nil => simp at h
  | cons w ws ih =>
    simp only [List.map_cons, List.nodup_cons] at hn
    rcases List.mem_cons.mp h with rfl | h
    · rw [Memory.writeAll_cons, Memory.read_writeAll_off, Memory.read_write_same]
      intro w hw heq
      exact hn.1 (List.mem_map.mpr ⟨w, hw, by omega⟩)
    · exact ih _ hn.2 h

/-- Writes inside the space keep the canonical form. -/
theorem Memory.writeAll_wf {m : Memory} (h : m.wf) (base : Nat) (ws : List (Nat × Byte))
    (hw : ∀ w ∈ ws, base + w.1 < 2 ^ 32) : (m.writeAll base ws).wf := by
  induction ws generalizing m with
  | nil => exact h
  | cons w ws ih =>
    rw [Memory.writeAll_cons]
    exact ih (Memory.write_wf h (hw w List.mem_cons_self) _) fun w hw' => hw w (List.mem_cons_of_mem _ hw')

@[simp] theorem freeBytes_fst (draw len : Nat) : (freeBytes draw len).map (·.1) = List.range len := by
  simp [freeBytes, Function.comp_def]

theorem mem_freeBytes {draw len : Nat} {w : Nat × Byte} (h : w ∈ freeBytes draw len) : w.1 < len := by
  obtain ⟨k, hk, rfl⟩ := List.mem_map.mp h
  exact List.mem_range.mp hk

end Sys2Proof.Machine
end

