-- ==== Sys2Proof/Laws/State.lean ====
section
/-! SUPPORT. One lemma per field per update of State, so that no proof unfolds a record update. -/

namespace Sys2Proof.Machine

section accept
variable (s : State) (w : Word)
@[simp] theorem State.accept_ie : (s.accept w).ie = s.ie := rfl
@[simp] theorem State.accept_cmd : (s.accept w).cmd = w := rfl
@[simp] theorem State.accept_status : (s.accept w).status = s.status := rfl
@[simp] theorem State.accept_src0 : (s.accept w).src0 = s.src0 := rfl
@[simp] theorem State.accept_src1 : (s.accept w).src1 = s.src1 := rfl
@[simp] theorem State.accept_len0 : (s.accept w).len0 = s.len0 := rfl
@[simp] theorem State.accept_len1 : (s.accept w).len1 = s.len1 := rfl
@[simp] theorem State.accept_dst : (s.accept w).dst = s.dst := rfl
@[simp] theorem State.accept_dstCap : (s.accept w).dstCap = s.dstCap := rfl
@[simp] theorem State.accept_outFmt : (s.accept w).outFmt = s.outFmt := rfl
@[simp] theorem State.accept_outLen : (s.accept w).outLen = s.outLen := rfl
@[simp] theorem State.accept_rate : (s.accept w).rate = s.rate := rfl
@[simp] theorem State.accept_qin : (s.accept w).qin = s.qin := rfl
@[simp] theorem State.accept_qout : (s.accept w).qout = s.qout := rfl
@[simp] theorem State.accept_job : (s.accept w).job = s.job := rfl
@[simp] theorem State.accept_mem : (s.accept w).mem = s.mem := rfl
@[simp] theorem State.accept_program : (s.accept w).program = s.program := rfl
@[simp] theorem State.accept_temps : (s.accept w).temps = s.temps := rfl
@[simp] theorem State.accept_platform : (s.accept w).platform = s.platform := rfl
@[simp] theorem State.accept_draws : (s.accept w).draws = s.draws := rfl
@[simp] theorem State.accept_busy : (s.accept w).busy = s.busy := rfl
end accept

section clearResult
variable (s : State)
@[simp] theorem State.clearResult_ie : s.clearResult.ie = s.ie := rfl
@[simp] theorem State.clearResult_cmd : s.clearResult.cmd = s.cmd := rfl
@[simp] theorem State.clearResult_status : s.clearResult.status = s.status.clearResult := rfl
@[simp] theorem State.clearResult_src0 : s.clearResult.src0 = s.src0 := rfl
@[simp] theorem State.clearResult_src1 : s.clearResult.src1 = s.src1 := rfl
@[simp] theorem State.clearResult_len0 : s.clearResult.len0 = s.len0 := rfl
@[simp] theorem State.clearResult_len1 : s.clearResult.len1 = s.len1 := rfl
@[simp] theorem State.clearResult_dst : s.clearResult.dst = s.dst := rfl
@[simp] theorem State.clearResult_dstCap : s.clearResult.dstCap = s.dstCap := rfl
@[simp] theorem State.clearResult_outFmt : s.clearResult.outFmt = s.outFmt := rfl
@[simp] theorem State.clearResult_outLen : s.clearResult.outLen = s.outLen := rfl
@[simp] theorem State.clearResult_rate : s.clearResult.rate = s.rate := rfl
@[simp] theorem State.clearResult_qin : s.clearResult.qin = s.qin := rfl
@[simp] theorem State.clearResult_qout : s.clearResult.qout = s.qout := rfl
@[simp] theorem State.clearResult_job : s.clearResult.job = s.job := rfl
@[simp] theorem State.clearResult_mem : s.clearResult.mem = s.mem := rfl
@[simp] theorem State.clearResult_program : s.clearResult.program = s.program := rfl
@[simp] theorem State.clearResult_temps : s.clearResult.temps = s.temps := rfl
@[simp] theorem State.clearResult_platform : s.clearResult.platform = s.platform := rfl
@[simp] theorem State.clearResult_draws : s.clearResult.draws = s.draws := rfl
@[simp] theorem State.clearResult_busy : s.clearResult.busy = s.busy := rfl
end clearResult

section raise
variable (s : State) (e : CmdError)
@[simp] theorem State.raise_ie : (s.raise e).ie = s.ie := rfl
@[simp] theorem State.raise_cmd : (s.raise e).cmd = s.cmd := rfl
@[simp] theorem State.raise_status : (s.raise e).status = s.status.raise e := rfl
@[simp] theorem State.raise_src0 : (s.raise e).src0 = s.src0 := rfl
@[simp] theorem State.raise_src1 : (s.raise e).src1 = s.src1 := rfl
@[simp] theorem State.raise_len0 : (s.raise e).len0 = s.len0 := rfl
@[simp] theorem State.raise_len1 : (s.raise e).len1 = s.len1 := rfl
@[simp] theorem State.raise_dst : (s.raise e).dst = s.dst := rfl
@[simp] theorem State.raise_dstCap : (s.raise e).dstCap = s.dstCap := rfl
@[simp] theorem State.raise_outFmt : (s.raise e).outFmt = s.outFmt := rfl
@[simp] theorem State.raise_outLen : (s.raise e).outLen = s.outLen := rfl
@[simp] theorem State.raise_rate : (s.raise e).rate = s.rate := rfl
@[simp] theorem State.raise_qin : (s.raise e).qin = s.qin := rfl
@[simp] theorem State.raise_qout : (s.raise e).qout = s.qout := rfl
@[simp] theorem State.raise_job : (s.raise e).job = s.job := rfl
@[simp] theorem State.raise_mem : (s.raise e).mem = s.mem := rfl
@[simp] theorem State.raise_program : (s.raise e).program = s.program := rfl
@[simp] theorem State.raise_temps : (s.raise e).temps = s.temps := rfl
@[simp] theorem State.raise_platform : (s.raise e).platform = s.platform := rfl
@[simp] theorem State.raise_draws : (s.raise e).draws = s.draws := rfl
@[simp] theorem State.raise_busy : (s.raise e).busy = s.busy := rfl
end raise

section dropCmd
variable (s : State)
@[simp] theorem State.dropCmd_ie : s.dropCmd.ie = s.ie := rfl
@[simp] theorem State.dropCmd_cmd : s.dropCmd.cmd = s.cmd := rfl
@[simp] theorem State.dropCmd_status : s.dropCmd.status = s.status.setDrop := rfl
@[simp] theorem State.dropCmd_src0 : s.dropCmd.src0 = s.src0 := rfl
@[simp] theorem State.dropCmd_src1 : s.dropCmd.src1 = s.src1 := rfl
@[simp] theorem State.dropCmd_len0 : s.dropCmd.len0 = s.len0 := rfl
@[simp] theorem State.dropCmd_len1 : s.dropCmd.len1 = s.len1 := rfl
@[simp] theorem State.dropCmd_dst : s.dropCmd.dst = s.dst := rfl
@[simp] theorem State.dropCmd_dstCap : s.dropCmd.dstCap = s.dstCap := rfl
@[simp] theorem State.dropCmd_outFmt : s.dropCmd.outFmt = s.outFmt := rfl
@[simp] theorem State.dropCmd_outLen : s.dropCmd.outLen = s.outLen := rfl
@[simp] theorem State.dropCmd_rate : s.dropCmd.rate = s.rate := rfl
@[simp] theorem State.dropCmd_qin : s.dropCmd.qin = s.qin := rfl
@[simp] theorem State.dropCmd_qout : s.dropCmd.qout = s.qout := rfl
@[simp] theorem State.dropCmd_job : s.dropCmd.job = s.job := rfl
@[simp] theorem State.dropCmd_mem : s.dropCmd.mem = s.mem := rfl
@[simp] theorem State.dropCmd_program : s.dropCmd.program = s.program := rfl
@[simp] theorem State.dropCmd_temps : s.dropCmd.temps = s.temps := rfl
@[simp] theorem State.dropCmd_platform : s.dropCmd.platform = s.platform := rfl
@[simp] theorem State.dropCmd_draws : s.dropCmd.draws = s.draws := rfl
@[simp] theorem State.dropCmd_busy : s.dropCmd.busy = s.busy := rfl
end dropCmd

section startJob
variable (s : State) (R : JobRecord)
@[simp] theorem State.startJob_ie : (s.startJob R).ie = s.ie := rfl
@[simp] theorem State.startJob_cmd : (s.startJob R).cmd = s.cmd := rfl
@[simp] theorem State.startJob_status : (s.startJob R).status = s.status := rfl
@[simp] theorem State.startJob_outFmt : (s.startJob R).outFmt = s.outFmt := rfl
@[simp] theorem State.startJob_outLen : (s.startJob R).outLen = s.outLen := rfl
@[simp] theorem State.startJob_job : (s.startJob R).job = some (Job.fresh R s.draws) := rfl
@[simp] theorem State.startJob_mem : (s.startJob R).mem = s.mem := rfl
@[simp] theorem State.startJob_program : (s.startJob R).program = s.program := rfl
@[simp] theorem State.startJob_temps : (s.startJob R).temps = s.temps := rfl
@[simp] theorem State.startJob_platform : (s.startJob R).platform = s.platform := rfl
@[simp] theorem State.startJob_draws : (s.startJob R).draws = s.draws + 1 := rfl
@[simp] theorem State.startJob_busy : (s.startJob R).busy = true := rfl
end startJob

section setTemp
variable (s : State) (t : Nat) (v : Word)
@[simp] theorem State.setTemp_temps : (s.setTemp t v).temps = cellsSet s.temps t v := rfl
@[simp] theorem State.setTemp_status : (s.setTemp t v).status = s.status := rfl
@[simp] theorem State.setTemp_outFmt : (s.setTemp t v).outFmt = s.outFmt := rfl
@[simp] theorem State.setTemp_outLen : (s.setTemp t v).outLen = s.outLen := rfl
@[simp] theorem State.setTemp_job : (s.setTemp t v).job = s.job := rfl
@[simp] theorem State.setTemp_mem : (s.setTemp t v).mem = s.mem := rfl
@[simp] theorem State.setTemp_program : (s.setTemp t v).program = s.program := rfl
@[simp] theorem State.setTemp_busy : (s.setTemp t v).busy = s.busy := rfl
end setTemp

section writeParam
variable (s : State) (r : Reg) (v : Word)
@[simp] theorem State.writeParam_cmd : (s.writeParam r v).cmd = s.cmd := by cases r <;> rfl
@[simp] theorem State.writeParam_status : (s.writeParam r v).status = s.status := by cases r <;> rfl
@[simp] theorem State.writeParam_outFmt : (s.writeParam r v).outFmt = s.outFmt := by cases r <;> rfl
@[simp] theorem State.writeParam_outLen : (s.writeParam r v).outLen = s.outLen := by cases r <;> rfl
@[simp] theorem State.writeParam_qout : (s.writeParam r v).qout = s.qout := by cases r <;> rfl
@[simp] theorem State.writeParam_job : (s.writeParam r v).job = s.job := by cases r <;> rfl
@[simp] theorem State.writeParam_mem : (s.writeParam r v).mem = s.mem := by cases r <;> rfl
@[simp] theorem State.writeParam_program : (s.writeParam r v).program = s.program := by cases r <;> rfl
@[simp] theorem State.writeParam_temps : (s.writeParam r v).temps = s.temps := by cases r <;> rfl
@[simp] theorem State.writeParam_platform : (s.writeParam r v).platform = s.platform := by cases r <;> rfl
@[simp] theorem State.writeParam_draws : (s.writeParam r v).draws = s.draws := by cases r <;> rfl
@[simp] theorem State.writeParam_busy : (s.writeParam r v).busy = s.busy := by cases r <;> rfl
end writeParam

section storeByte
variable (s : State) (a : Nat) (b : Byte)
@[simp] theorem State.storeByte_mem : (s.storeByte a b).mem = s.mem.write a b := rfl
@[simp] theorem State.storeByte_job : (s.storeByte a b).job = s.job.map (·.noteStore a) := rfl
@[simp] theorem State.storeByte_status : (s.storeByte a b).status = s.status := rfl
@[simp] theorem State.storeByte_outFmt : (s.storeByte a b).outFmt = s.outFmt := rfl
@[simp] theorem State.storeByte_outLen : (s.storeByte a b).outLen = s.outLen := rfl
@[simp] theorem State.storeByte_temps : (s.storeByte a b).temps = s.temps := rfl
@[simp] theorem State.storeByte_program : (s.storeByte a b).program = s.program := rfl
@[simp] theorem State.storeByte_busy : (s.storeByte a b).busy = s.busy := by
  cases h : s.job <;> simp [State.busy, h]
end storeByte

section countHostOp
variable (s : State)
@[simp] theorem State.countHostOp_status : s.countHostOp.status = s.status := rfl
@[simp] theorem State.countHostOp_outFmt : s.countHostOp.outFmt = s.outFmt := rfl
@[simp] theorem State.countHostOp_outLen : s.countHostOp.outLen = s.outLen := rfl
@[simp] theorem State.countHostOp_mem : s.countHostOp.mem = s.mem := rfl
@[simp] theorem State.countHostOp_temps : s.countHostOp.temps = s.temps := rfl
@[simp] theorem State.countHostOp_program : s.countHostOp.program = s.program := rfl
@[simp] theorem State.countHostOp_platform : s.countHostOp.platform = s.platform := rfl
@[simp] theorem State.countHostOp_job : s.countHostOp.job =
    s.job.map fun J => { J with prog := { J.prog with hostOps := J.prog.hostOps + 1 } } := rfl
@[simp] theorem State.countHostOp_busy : s.countHostOp.busy = s.busy := by
  cases h : s.job <;> simp [State.busy, h]
end countHostOp

section completeJob
variable (s : State) (J : Job)
@[simp] theorem State.completeJob_job : (s.completeJob J).job = none := rfl
@[simp] theorem State.completeJob_status : (s.completeJob J).status = s.status.setDone := rfl
@[simp] theorem State.completeJob_outLen : (s.completeJob J).outLen = BitVec.ofNat 32 J.params.len := rfl
@[simp] theorem State.completeJob_outFmt : (s.completeJob J).outFmt = J.params.outFmt := rfl
@[simp] theorem State.completeJob_temps : (s.completeJob J).temps = s.temps := rfl
@[simp] theorem State.completeJob_program : (s.completeJob J).program = s.program := rfl
@[simp] theorem State.completeJob_busy : (s.completeJob J).busy = false := rfl
end completeJob

section resetInput
variable (s : State)
@[simp] theorem State.resetInput_job : s.resetInput.job = none := rfl
@[simp] theorem State.resetInput_status : s.resetInput.status = Status.reset := rfl
@[simp] theorem State.resetInput_outFmt : s.resetInput.outFmt = 0 := rfl
@[simp] theorem State.resetInput_outLen : s.resetInput.outLen = 0 := rfl
@[simp] theorem State.resetInput_temps : s.resetInput.temps = s.temps := rfl
@[simp] theorem State.resetInput_program : s.resetInput.program = s.program := rfl
@[simp] theorem State.resetInput_platform : s.resetInput.platform = s.platform := rfl
@[simp] theorem State.resetInput_busy : s.resetInput.busy = false := rfl
end resetInput

/-! ### Status updates -/

section status
variable (st : Status) (e : CmdError)
@[simp] theorem Status.clearResult_done : st.clearResult.done = false := rfl
@[simp] theorem Status.clearResult_err : st.clearResult.err = false := rfl
@[simp] theorem Status.clearResult_drop : st.clearResult.drop = st.drop := rfl
@[simp] theorem Status.clearResult_errcode : st.clearResult.errcode = 0 := rfl
@[simp] theorem Status.clearResult_errinfo : st.clearResult.errinfo = 0 := rfl
@[simp] theorem Status.setDone_done : st.setDone.done = true := rfl
@[simp] theorem Status.setDone_err : st.setDone.err = st.err := rfl
@[simp] theorem Status.setDone_drop : st.setDone.drop = st.drop := rfl
@[simp] theorem Status.setDone_errcode : st.setDone.errcode = st.errcode := rfl
@[simp] theorem Status.setDone_errinfo : st.setDone.errinfo = st.errinfo := rfl
@[simp] theorem Status.setDrop_done : st.setDrop.done = st.done := rfl
@[simp] theorem Status.setDrop_err : st.setDrop.err = st.err := rfl
@[simp] theorem Status.setDrop_drop : st.setDrop.drop = true := rfl
@[simp] theorem Status.setDrop_errcode : st.setDrop.errcode = st.errcode := rfl
@[simp] theorem Status.setDrop_errinfo : st.setDrop.errinfo = st.errinfo := rfl
@[simp] theorem Status.clearDrop_done : st.clearDrop.done = st.done := rfl
@[simp] theorem Status.clearDrop_err : st.clearDrop.err = st.err := rfl
@[simp] theorem Status.clearDrop_drop : st.clearDrop.drop = false := rfl
@[simp] theorem Status.clearDrop_errcode : st.clearDrop.errcode = st.errcode := rfl
@[simp] theorem Status.clearDrop_errinfo : st.clearDrop.errinfo = st.errinfo := rfl
@[simp] theorem Status.raise_done : (st.raise e).done = st.done := rfl
@[simp] theorem Status.raise_err : (st.raise e).err = true := rfl
@[simp] theorem Status.raise_drop : (st.raise e).drop = st.drop := rfl
@[simp] theorem Status.raise_errcode : (st.raise e).errcode = e.errcode := rfl
@[simp] theorem Status.raise_errinfo : (st.raise e).errinfo = e.errinfo := rfl
end status

end Sys2Proof.Machine
end

