-- ==== Sys2Proof/Laws/Ops.lean ====
section
/-! SUPPORT. What the shared operations can do, said once each: the issue of a command, ENCODE's checks, a register access,
every command (`exec_next_cases`) and every host operation (`execHostOp_next_cases`). -/

namespace Sys2Proof.Machine

/-! ### Operands -/

theorem Depth.ofField_eq_some {depth : Byte} {d : Depth} : Depth.ofField depth = some d ↔ depth.toNat = d.bits := by
  unfold Depth.ofField
  split_ifs with h h'
  · subst h; cases d <;> simp [Depth.bits]
  · subst h'; cases d <;> simp [Depth.bits]
  · have h8 : depth.toNat ≠ 8 := fun e => h (BitVec.eq_of_toNat_eq e)
    have h16 : depth.toNat ≠ 16 := fun e => h' (BitVec.eq_of_toNat_eq e)
    cases d <;> simp [Depth.bits, h8, h16]

theorem Depth.ofField_eq_none {depth : Byte} : Depth.ofField depth = none ↔ depth.toNat ≠ 8 ∧ depth.toNat ≠ 16 := by
  unfold Depth.ofField
  split_ifs with h h'
  · subst h; simp
  · subst h'; simp
  · exact iff_of_true rfl ⟨fun e => h (BitVec.eq_of_toNat_eq e), fun e => h' (BitVec.eq_of_toNat_eq e)⟩

theorem Layout.ofField_eq_none {nch : Byte} : Layout.ofField nch = none ↔ nch = 0 := by
  unfold Layout.ofField
  split_ifs with h h'
  · exact iff_of_true rfl h
  · exact iff_of_false (by simp) h
  · exact iff_of_false (by simp) h

theorem Layout.ofField_eq_some {nch : Byte} {lay : Layout} :
    Layout.ofField nch = some lay ↔ nch ≠ 0 ∧ (lay = .mono ↔ nch = 1) := by
  unfold Layout.ofField
  split_ifs with h h'
  · exact iff_of_false (by simp) fun e => e.1 h
  · cases lay <;> simp_all
  · cases lay <;> simp_all

theorem Depth.bytes_pos (d : Depth) : 0 < d.bytes := by cases d <;> decide
theorem Layout.channels_pos (l : Layout) : 0 < l.channels := by cases l <;> decide

/-- The addresses of the participating channels, by layout. -/
theorem JobRecord.mem_sources {R : JobRecord} {b : Nat} :
    b ∈ R.sources ↔ b = R.src0.toNat ∨ (R.layout = .stereo ∧ b = R.src1.toNat) := by
  cases h : R.layout <;>
    simp [JobRecord.sources, JobRecord.ch, Layout.channels, JobRecord.srcBase, h, List.range_succ, eq_comm]

theorem JobRecord.mem_sourceBytes {R : JobRecord} {p : Nat × Nat} :
    p ∈ R.sourceBytes ↔ p.1 < R.ch ∧ p.2 < R.srcLen := by
  obtain ⟨c, j⟩ := p
  simp [JobRecord.sourceBytes]

theorem JobRecord.sourceBytes_nodup (R : JobRecord) : R.sourceBytes.Nodup := by
  refine List.nodup_flatMap.mpr ⟨fun c _ => List.nodup_range.map fun i j h => by simpa using h, ?_⟩
  refine List.nodup_range.imp fun {c c'} hne p hp hp' => ?_
  obtain ⟨_, _, rfl⟩ := List.mem_map.mp hp
  obtain ⟨_, _, h⟩ := List.mem_map.mp hp'
  exact hne (by simpa using (Prod.mk.inj h).1.symm)

/-- A byte the job reads lies in a participating source. -/
theorem JobRecord.inSource_of_sourceByte {R : JobRecord} {c j : Nat} (hc : c < R.ch) (hj : j < R.srcLen) :
    R.inSource (R.srcBase c + j) :=
  ⟨R.srcBase c, List.mem_map.mpr ⟨c, List.mem_range.mpr hc, rfl⟩, by omega, by omega⟩

/-- A legal job's destination holds no source byte. -/
theorem JobRecord.Legal.not_inSource {R : JobRecord} (h : R.Legal) {a : Nat} (ha : R.inDest a) : ¬R.inSource a := by
  rintro ⟨b, hb, h₁, h₂⟩
  obtain ⟨h₃, h₄⟩ := ha
  exact h.2.2.2 ⟨b, hb, by omega, by omega, by omega⟩

/-! ### Issuing a command (R24) -/

theorem State.issue_of_busy {s : State} (h : s.busy = true) (w : Word)
    (body : State → Host.Outcome State Fault Refusal) : s.issue w body = .next s.dropCmd := by simp [State.issue, h]

theorem State.issue_of_idle {s : State} (h : s.busy = false) (w : Word)
    (body : State → Host.Outcome State Fault Refusal) : s.issue w body = body (s.accept w) := by simp [State.issue, h]

/-- An issue that answers a next state dropped the word or executed its body. -/
theorem State.issue_next {s t : State} {w : Word} {body : State → Host.Outcome State Fault Refusal}
    (h : s.issue w body = .next t) :
    (s.busy = true ∧ t = s.dropCmd) ∨ (s.busy = false ∧ body (s.accept w) = .next t) := by
  cases hb : s.busy
  · exact .inr ⟨rfl, by rwa [State.issue_of_idle hb] at h⟩
  · rw [State.issue_of_busy hb] at h
    exact .inl ⟨rfl, (Host.Outcome.next.inj h).symm⟩

/-! ### ENCODE's checks (R166) -/

/-- A job record that the checks let through is the latched one, and legal. -/
theorem State.encodeChecks_ok {s : State} {depth nch : Byte} {R : JobRecord} (h : s.encodeChecks depth nch = .ok R) :
    R.Legal ∧ ∃ d lay, Depth.ofField depth = some d ∧ Layout.ofField nch = some lay ∧ R = s.recordOf d lay ∧
      R.len ≤ s.dstCap.toNat := by
  unfold State.encodeChecks at h
  split at h
  · cases h
  · rename_i d hd
    split at h
    · cases h
    · rename_i lay hl
      dsimp only at h
      split_ifs at h with h₁ h₂ h₃ h₄ h₅
      cases h
      have := s.dstCap.isLt
      exact ⟨⟨h₂, by omega, by omega, h₅⟩, d, lay, hd, hl, rfl, by omega⟩

/-! ### What a command can do -/

/-- The state an ENCODE checks: accepted, the last result cleared, OUT_LEN and OUT_FMT 0 (R103, R166). -/
def State.encodeStart (s : State) (w : Word) : State := { (s.accept w).clearResult with outLen := 0, outFmt := 0 }

/-- ENCODE while idle, in full: the first error, or the launch of the latched job. -/
theorem exec_encode_idle {s : State} (h : s.busy = false) (depth nch : Byte) : exec (.encode depth nch) s =
    (let s' := s.encodeStart (encodeInstr (.encode depth nch))
    match s'.encodeChecks depth nch with
    | .error e => .next (s'.raise e)
    | .ok R =>
      match launchRefusal s.platform R with
      | some r => .refused r
      | none => .next (s'.startJob R)) := by
  simp only [exec, execEncode, State.issue_of_idle h]
  rfl

/-- Everything a command that answers a next state can have done. -/
theorem exec_next_cases {i : Instr} {s t : State} (h : exec i s = .next t) :
    (s.busy = true ∧ t = s.dropCmd) ∨
    (s.busy = false ∧ (
      (∃ dp nc, i = .nop dp nc ∧ t = s.accept (encodeInstr i)) ∨
      (∃ dp nc, i = .clear dp nc ∧ t = { (s.accept (encodeInstr i)).clearResult with
        status := s.status.clearResult.clearDrop }) ∨
      (∃ dp nc, i = .quant dp nc ∧ t = (s.accept (encodeInstr i)).clearResult.raise .unsupportedFormat) ∨
      (∃ dp nc d, i = .quant dp nc ∧ Depth.ofField dp = some d ∧ t = { (s.accept (encodeInstr i)).clearResult with
        qout := (code d (quantize s.qin d)).signExtend 32, status := s.status.clearResult.setDone }) ∨
      (∃ dp nc e, i = .encode dp nc ∧ (s.encodeStart (encodeInstr i)).encodeChecks dp nc = .error e ∧
        t = (s.encodeStart (encodeInstr i)).raise e) ∨
      (∃ dp nc R, i = .encode dp nc ∧ (s.encodeStart (encodeInstr i)).encodeChecks dp nc = .ok R ∧
        launchRefusal s.platform R = none ∧ t = (s.encodeStart (encodeInstr i)).startJob R))) := by
  cases i with
  | nop dp nc =>
    refine (State.issue_next h).imp_right fun ⟨hb, h⟩ => ⟨hb, .inl ⟨dp, nc, rfl, ?_⟩⟩
    exact (Host.Outcome.next.inj h).symm
  | clear dp nc =>
    simp only [exec, execClear] at h
    refine (State.issue_next h).imp_right fun ⟨hb, h⟩ => ⟨hb, .inr (.inl ⟨dp, nc, rfl, ?_⟩)⟩
    exact (Host.Outcome.next.inj h).symm
  | quant dp nc =>
    simp only [exec, execQuant] at h
    refine (State.issue_next h).imp_right fun ⟨hb, h⟩ => ⟨hb, ?_⟩
    split at h
    · exact .inr (.inr (.inl ⟨dp, nc, rfl, (Host.Outcome.next.inj h).symm⟩))
    · rename_i d hd
      exact .inr (.inr (.inr (.inl ⟨dp, nc, d, rfl, hd, (Host.Outcome.next.inj h).symm⟩)))
  | encode dp nc =>
    simp only [exec, execEncode] at h
    refine (State.issue_next h).imp_right fun ⟨hb, h⟩ => ⟨hb, ?_⟩
    split at h
    · rename_i e he
      exact .inr (.inr (.inr (.inr (.inl ⟨dp, nc, e, rfl, he, (Host.Outcome.next.inj h).symm⟩))))
    · rename_i R hR
      split at h
      · cases h
      · rename_i hl
        exact .inr (.inr (.inr (.inr (.inr ⟨dp, nc, R, rfl, hR, hl, (Host.Outcome.next.inj h).symm⟩))))

/-! ### What a host operation can do -/

/-- A 32-bit access at a register's offset reaches that register. -/
@[simp] theorem regAccess_offset (r : Reg) : regAccess .word r.offset = some r := by cases r <;> rfl

/-- Everything a register write that answers a next state can have done. -/
theorem State.writeReg_next_cases {s t : State} {r : Reg} {v : Word} (h : s.writeReg r v = .next t) :
    (r = .cmd ∧ ∃ i, decode v = .ok i ∧ exec i s = .next t) ∨
    (r = .cmd ∧ s.busy = true ∧ t = s.dropCmd) ∨
    (r = .cmd ∧ s.busy = false ∧ t = (s.accept v).clearResult.raise .illegalCommand) ∨
    (r ≠ .cmd ∧ t = s.writeParam r v) := by
  by_cases hr : r = .cmd
  · subst hr
    simp only [State.writeReg, State.writeCmdReg] at h
    split at h
    · rename_i i hi
      exact .inl ⟨rfl, i, hi, h⟩
    · rcases State.issue_next h with ⟨hb, rfl⟩ | ⟨hb, h⟩
      · exact .inr (.inl ⟨rfl, hb, rfl⟩)
      · exact .inr (.inr (.inl ⟨rfl, hb, (Host.Outcome.next.inj h).symm⟩))
  · refine .inr (.inr (.inr ⟨hr, ?_⟩))
    cases r <;> first | exact absurd rfl hr | exact (Host.Outcome.next.inj h).symm

/-- A host memory access that answers a next state is inside the space and went to the window or to memory. -/
theorem State.hostMem_next {s t : State} {a len : Nat} {w m : Host.Outcome State Fault Refusal}
    (h : s.hostMem a len w m = .next t) : a + len ≤ 2 ^ 32 ∧ (w = .next t ∨ m = .next t) := by
  unfold State.hostMem at h
  split_ifs at h with h₁ h₂ h₃
  · exact ⟨by omega, .inl h⟩
  · exact ⟨by omega, .inr h⟩

/-- Everything a host operation that answers a next state can have done. -/
theorem execHostOp_next_cases {op : HostOp} {s t : State} (h : execHostOp op s = .next t) :
    (∃ r v, s.writeReg r v = .next t) ∨
    (∃ n v, t = s.setTemp n v) ∨
    t = s ∨
    (t = { s with program := op :: s.program }) ∨
    (∃ a b, a < 2 ^ 32 ∧ t = s.storeByte a b) ∨
    (∃ a v, a + 4 ≤ 2 ^ 32 ∧ t = s.storeBytes a (wordBytes v)) ∨
    (∃ a n, t = s.loadByte a n) ∨
    (op = .reset ∧ t = s.resetInput) := by
  cases op with
  | wr size offset v =>
    simp only [execHostOp] at h
    split at h
    · cases h
    · exact .inl ⟨_, _, h⟩
  | rd size offset n =>
    simp only [execHostOp] at h
    split at h
    · cases h
    · exact .inr (.inl ⟨_, _, (Host.Outcome.next.inj h).symm⟩)
  | poll size offset mask val =>
    simp only [execHostOp] at h
    split at h
    · cases h
    · split_ifs at h
      · exact .inr (.inr (.inl (Host.Outcome.next.inj h).symm))
      · exact .inr (.inr (.inr (.inl (Host.Outcome.next.inj h).symm)))
  | mw8 addr v =>
    obtain ⟨ha, h | h⟩ := State.hostMem_next h
    · cases h
    · exact .inr (.inr (.inr (.inr (.inl ⟨_, _, by omega, (Host.Outcome.next.inj h).symm⟩))))
  | mw32 addr v =>
    obtain ⟨ha, h | h⟩ := State.hostMem_next h
    · split at h
      · cases h
      · exact .inl ⟨_, _, h⟩
    · exact .inr (.inr (.inr (.inr (.inr (.inl ⟨_, _, ha, (Host.Outcome.next.inj h).symm⟩)))))
  | mr8 addr n =>
    obtain ⟨ha, h | h⟩ := State.hostMem_next h
    · cases h
    · exact .inr (.inr (.inr (.inr (.inr (.inr (.inl ⟨_, _, (Host.Outcome.next.inj h).symm⟩))))))
  | reset => exact .inr (.inr (.inr (.inr (.inr (.inr (.inr ⟨rfl, (Host.Outcome.next.inj h).symm⟩))))))

/-- A host load changes the named values and the draw counter only. -/
theorem State.loadByte_cases (s : State) (a n : Nat) :
    ∃ v k, s.loadByte a n = { s.setTemp n v with draws := s.draws + k } := by
  unfold State.loadByte
  split_ifs
  · exact ⟨_, 1, rfl⟩
  · exact ⟨_, 0, rfl⟩

/-- On a plain platform a host access inside the space goes to memory. -/
theorem State.hostMem_plain {s : State} {a len : Nat} (w m : Host.Outcome State Fault Refusal)
    (hp : s.platform.absent = []) (hs : s.platform.sharedSpace = false) (ha : a + len ≤ 2 ^ 32) :
    s.hostMem a len w m = m := by
  have hl : ¬Lacks s.platform a len := by simp [Lacks, hp]
  have hw : ¬WindowMeets s.platform a len := by simp [WindowMeets, hs]
  simp only [State.hostMem, if_neg (Nat.not_lt.mpr ha), if_neg hw, if_neg hl]

/-- A store inside a job's regions is noted. -/
theorem Job.noteStore_hit {J : Job} {a : Nat} (h : J.params.inDest a ∨ J.params.inSource a) :
    J.noteStore a = { J with prog := { J.prog with raced := true } } := if_pos h

/-- A store outside a job's regions leaves the job as it is. -/
theorem Job.noteStore_miss {J : Job} {a : Nat} (h : ¬(J.params.inDest a ∨ J.params.inSource a)) :
    J.noteStore a = J := if_neg h

/-- A host store of a word is four stores of a byte. -/
theorem State.storeBytes_word (s : State) (a : Nat) (v : Word) : s.storeBytes a (wordBytes v) =
    ((((s.storeByte a (v.extractLsb' 0 8)).storeByte (a + 1) (v.extractLsb' 8 8)).storeByte (a + 2)
      (v.extractLsb' 16 8)).storeByte (a + 3) (v.extractLsb' 24 8)) := rfl

/-! ### What a step can do -/

/-- A step is an engine step, a host operation, or nothing at the end of the host's program. -/
theorem step_next_cases {s s' : State} (h : step s = .next s') :
    (∃ J, s.job = some J ∧ s.engineMoves J = true ∧ s' = s.engineStep J) ∨
    (∃ op rest, s.program = op :: rest ∧ s.job = none ∧ execHostOp op { s with program := rest } = .next s') ∨
    (∃ op rest J, s.program = op :: rest ∧ s.job = some J ∧
      execHostOp op { s.countHostOp with program := rest } = .next s') ∨
    (s.program = [] ∧ s.job = none ∧ s' = s) := by
  unfold step at h
  obtain hj | ⟨J, hj⟩ := Option.eq_none_or_eq_some s.job
  · simp only [hj, State.hostStep] at h
    split at h
    · rename_i hp
      exact .inr (.inr (.inr ⟨hp, hj, (Host.Outcome.next.inj h).symm⟩))
    · rename_i op rest hp
      exact .inr (.inl ⟨op, rest, hp, hj, by simpa only [hj] using h⟩)
  · simp only [hj] at h
    split_ifs at h with hm
    · exact .inl ⟨J, hj, hm, (Host.Outcome.next.inj h).symm⟩
    · simp only [State.hostStep] at h
      split at h
      · rename_i hp
        exact absurd (by simp [State.engineMoves, show s.program = [] from hp]) hm
      · rename_i op rest hp
        exact .inr (.inr (.inl ⟨op, rest, J, hp, hj, h⟩))

end Sys2Proof.Machine
end

