-- ==== Sys2Proof/Laws/Engine.lean ====
section
/-! SUPPORT. What one engine step can do: the bytes it reads, the stream bytes it writes, and the state it leaves. -/

namespace Sys2Proof.Machine

/-! ### Reading -/

section fetch
variable (J : Job) (take : Nat → Nat → Bool) (m : Memory)

@[simp] theorem Job.fetch_params : (J.fetch take m).params = J.params := rfl
@[simp] theorem Job.fetch_written : (J.fetch take m).prog.written = J.prog.written := rfl
@[simp] theorem Job.fetch_raced : (J.fetch take m).prog.raced = J.prog.raced := rfl
@[simp] theorem Job.fetch_draw : (J.fetch take m).prog.draw = J.prog.draw := rfl
@[simp] theorem Job.fetch_steps : (J.fetch take m).prog.steps = J.prog.steps := rfl
@[simp] theorem Job.fetch_hostOps : (J.fetch take m).prog.hostOps = J.prog.hostOps := rfl

end fetch

/-- Looking up a key in a list made from keys by one function of the key. -/
theorem lookup_map_key {α β : Type} [DecidableEq α] [BEq α] [LawfulBEq α] (g : α → β) (l : List α) (q : α) :
    (l.map fun p => (p, g p)).lookup q = if q ∈ l then some (g q) else none := by
  induction l with
  | nil => rfl
  | cons p l ih =>
    rw [List.map_cons, List.lookup_cons]
    by_cases h : q = p
    · subst h; simp
    · simp [beq_eq_false_iff_ne.mpr h, ih, h]

theorem lookup_eq_none_iff_key {α β : Type} [BEq α] [LawfulBEq α] (l : List (α × β)) (q : α) :
    l.lookup q = none ↔ q ∉ l.map (·.1) := by
  induction l with
  | nil => simp
  | cons e l ih =>
    obtain ⟨p, b⟩ := e
    rw [List.lookup_cons]
    by_cases h : q = p
    · subst h; simp
    · simp only [beq_eq_false_iff_ne.mpr h, ih, List.map_cons, List.mem_cons, h, false_or]

theorem mem_of_lookup {α β : Type} [BEq α] [LawfulBEq α] {l : List (α × β)} {q : α} {b : β}
    (h : l.lookup q = some b) : (q, b) ∈ l := by
  induction l with
  | nil => simp at h
  | cons e l ih =>
    obtain ⟨p, c⟩ := e
    rw [List.lookup_cons] at h
    by_cases hq : q = p
    · subst hq
      simp only [beq_self_eq_true, Option.some.injEq] at h
      simp [h]
    · rw [beq_eq_false_iff_ne.mpr hq] at h; exact List.mem_cons_of_mem _ (ih h)

/-- A byte already read stays as it was read; a new one is the byte in memory; nothing else is read. -/
theorem Job.fetch_lookup (J : Job) (take : Nat → Nat → Bool) (m : Memory) (p : Nat × Nat) :
    (J.fetch take m).prog.fetched.lookup p =
      match J.prog.fetched.lookup p with
      | some b => some b
      | none => if p ∈ J.params.sourceBytes ∧ take p.1 p.2 = true then some (m.read (J.params.srcBase p.1 + p.2))
        else none := by
  simp only [Job.fetch, List.lookup_append]
  rw [lookup_map_key (fun p : Nat × Nat => m.read (J.params.srcBase p.1 + p.2))]
  cases h : J.prog.fetched.lookup p <;> simp [h]

/-- A byte listed as read was listed before or is a new byte of the job's sources, as it stands in memory. -/
theorem Job.mem_fetch {J : Job} {take : Nat → Nat → Bool} {m : Memory} {e : (Nat × Nat) × Byte}
    (h : e ∈ (J.fetch take m).prog.fetched) :
    e ∈ J.prog.fetched ∨
      (e.1 ∈ J.params.sourceBytes ∧ J.prog.fetched.lookup e.1 = none ∧ e.2 = m.read (J.params.srcBase e.1.1 + e.1.2)) := by
  simp only [Job.fetch] at h
  rcases List.mem_append.mp h with h | h
  · exact .inl h
  · obtain ⟨p, hp, rfl⟩ := List.mem_map.mp h
    obtain ⟨hp, hq⟩ := List.mem_filter.mp hp
    simp only [Bool.and_eq_true, Option.isNone_iff_eq_none] at hq
    exact .inr ⟨hp, hq.1, rfl⟩

/-- No source byte is read twice. -/
theorem Job.fetch_nodup {J : Job} (h : (J.prog.fetched.map (·.1)).Nodup) (take : Nat → Nat → Bool) (m : Memory) :
    ((J.fetch take m).prog.fetched.map (·.1)).Nodup := by
  simp only [Job.fetch, List.map_append, List.map_map]
  refine List.nodup_append'.mpr ⟨h, ?_, ?_⟩
  · exact (JobRecord.sourceBytes_nodup _).filter _ |>.map fun _ _ h => h
  · intro p hp hq
    obtain ⟨q, hm, heq⟩ := List.mem_map.mp hq
    obtain rfl : q = p := heq
    have := (List.mem_filter.mp hm).2
    simp only [Bool.and_eq_true, Option.isNone_iff_eq_none] at this
    exact (lookup_eq_none_iff_key _ _).mp this.1 hp

/-- A sample that has been read stays as it was read. -/
theorem Job.fetch_sample {J : Job} {c i : Nat} {f : Word} (h : J.sample c i = some f) (take : Nat → Nat → Bool)
    (m : Memory) : (J.fetch take m).sample c i = some f := by
  unfold Job.sample at h ⊢
  simp only [Job.fetch_lookup]
  split at h
  · rename_i h₀ h₁ h₂ h₃
    simpa [h₀, h₁, h₂, h₃] using h
  · cases h

/-- A stream byte whose sample has been read stays as it is. -/
theorem Job.fetch_streamByte {J : Job} {k : Nat} {b : Byte} (h : J.streamByte k = some b) (take : Nat → Nat → Bool)
    (m : Memory) : (J.fetch take m).streamByte k = some b := by
  simp only [Job.streamByte, Job.fetch_params] at h ⊢
  split at h
  · rename_i f hf
    rw [Job.fetch_sample hf]; exact h
  · cases h

/-- A sample read is four bytes read, assembled little-endian. -/
theorem Job.sample_eq_some {J : Job} {c i : Nat} {f : Word} (h : J.sample c i = some f) :
    ∃ b0 b1 b2 b3, ((c, 4 * i), b0) ∈ J.prog.fetched ∧ ((c, 4 * i + 1), b1) ∈ J.prog.fetched ∧
      ((c, 4 * i + 2), b2) ∈ J.prog.fetched ∧ ((c, 4 * i + 3), b3) ∈ J.prog.fetched ∧ f = joinBytes b0 b1 b2 b3 := by
  unfold Job.sample at h
  split at h
  · rename_i b0 b1 b2 b3 h₀ h₁ h₂ h₃
    exact ⟨b0, b1, b2, b3, mem_of_lookup h₀, mem_of_lookup h₁, mem_of_lookup h₂, mem_of_lookup h₃,
      (Option.some.inj h).symm⟩
  · cases h

/-- Once every source byte is picked, every sample of a participating channel has been read. -/
theorem Job.fetch_all_sample (J : Job) (take : Nat → Nat → Bool) (m : Memory) (ht : ∀ c j, take c j = true) {c i : Nat}
    (hc : c < J.params.ch) (hi : i < J.params.n.toNat) : ((J.fetch take m).sample c i).isSome = true := by
  have key : ∀ j, j < J.params.srcLen → ∃ b, (J.fetch take m).prog.fetched.lookup (c, j) = some b := by
    intro j hj
    rw [Job.fetch_lookup]
    cases J.prog.fetched.lookup (c, j) with
    | some b => exact ⟨b, rfl⟩
    | none => exact ⟨_, if_pos ⟨JobRecord.mem_sourceBytes.mpr ⟨hc, hj⟩, ht _ _⟩⟩
  have hl : J.params.srcLen = 4 * J.params.n.toNat := rfl
  obtain ⟨b0, h₀⟩ := key (4 * i) (by omega)
  obtain ⟨b1, h₁⟩ := key (4 * i + 1) (by omega)
  obtain ⟨b2, h₂⟩ := key (4 * i + 2) (by omega)
  obtain ⟨b3, h₃⟩ := key (4 * i + 3) (by omega)
  simp [Job.sample, h₀, h₁, h₂, h₃]

/-! ### Writing -/

theorem Job.mem_readyBytes {J : Job} {put : Nat → Bool} {w : Nat × Byte} :
    w ∈ J.readyBytes put ↔
      w.1 < J.params.len ∧ w.1 ∉ J.prog.written ∧ put w.1 = true ∧ J.streamByte w.1 = some w.2 := by
  obtain ⟨k, b⟩ := w
  simp only [Job.readyBytes, List.mem_filterMap, List.mem_range]
  constructor
  · rintro ⟨k', hk', h⟩
    split_ifs at h with hc
    split at h
    · rename_i b' hb'
      simp only [Option.some.injEq, Prod.mk.injEq] at h
      obtain ⟨rfl, rfl⟩ := h
      simp only [Bool.or_eq_true, List.contains_iff_mem, Bool.not_eq_true', not_or, Bool.not_eq_false] at hc
      exact ⟨hk', hc.1, hc.2, hb'⟩
    · cases h
  · rintro ⟨hk, hw, hp, hb⟩
    refine ⟨k, hk, ?_⟩
    rw [if_neg (by simp [hw, hp])]
    rw [show J.streamByte k = some b from hb]

theorem Job.readyBytes_nodup (J : Job) (put : Nat → Bool) : ((J.readyBytes put).map (·.1)).Nodup := by
  have key : ∀ k w, (if J.prog.written.contains k || !put k then none
      else match J.streamByte k with
        | some b => some (k, b)
        | none => none) = some w → w.1 = k := by
    intro k w h
    split_ifs at h
    split at h
    · exact (congrArg Prod.fst (Option.some.inj h)).symm
    · cases h
  rw [Job.readyBytes, List.map_filterMap]
  refine List.nodup_range.filterMap fun k k' i hi hi' => ?_
  obtain ⟨w, hw, rfl⟩ := Option.map_eq_some_iff.mp (Option.mem_def.mp hi)
  obtain ⟨w', hw', heq⟩ := Option.map_eq_some_iff.mp (Option.mem_def.mp hi')
  rw [← key k w hw, ← heq, key k' w' hw']

/-! ### One engine step -/

/-- The state the last engine step completes: the remaining accesses made. -/
def State.afterAccesses (s : State) (J : Job) (last : Bool) (take : Nat → Nat → Bool) (put : Nat → Bool) : State :=
  { s with mem := s.mem.writeAll J.params.dst.toNat <|
      ((J.fetch (fun c j => last || take c j) s.mem).readyBytes fun k => last || put k) }

/-- The job after an engine step that is not its last. -/
def Job.afterAccesses (J : Job) (m : Memory) (take : Nat → Nat → Bool) (put : Nat → Bool) : Job :=
  let J' := J.fetch take m
  { J' with prog := { J'.prog with
      written := J'.prog.written ++ (J'.readyBytes put).map (·.1), steps := J'.prog.steps + 1, hostOps := 0 } }

/-- An engine step completes the job or leaves it with more accesses made. -/
theorem State.engineTurn_cases (s : State) (J : Job) (last : Bool) (take : Nat → Nat → Bool) (put : Nat → Bool) :
    (last = true ∧ s.engineTurn J last take put =
      (s.afterAccesses J true take put).completeJob (J.fetch (fun _ _ => true) s.mem)) ∨
    (last = false ∧ s.engineTurn J last take put =
      { s.afterAccesses J false take put with job := some (J.afterAccesses s.mem take put) }) := by
  cases last
  · exact .inr ⟨rfl, rfl⟩
  · exact .inl ⟨rfl, rfl⟩

end Sys2Proof.Machine
end

