-- ==== Sys2Proof/Laws/PerInstr.lean ====
section
/-! SUPPORT. Statements made instruction by instruction. The family TableRow: an instruction's word has the fixed bits of its
row of opcode_table.json (R100, R101). -/

namespace Sys2Proof.Laws

open Sys2Proof

/-- The fixed bits [7:0] of an instruction's row. -/
def TableRow.low (i : Instr) : Byte :=
  match i with
  | .nop _ _ => 0
  | .encode _ _ => 1
  | .quant _ _ => 2
  | .clear _ _ => 3

/-- The word has its row's fixed bits [7:0], and 0 in [31:24]. -/
def TableRow.Statement (i : Instr) : Prop :=
  (encodeInstr i).extractLsb' 0 8 = TableRow.low i ∧ (encodeInstr i).extractLsb' 24 8 = 0

/-- The fixed bits of a word joined from its fields. -/
theorem TableRow.of_fields (op : BitVec 4) (depth nch : Byte) :
    (joinFields op depth nch).extractLsb' 0 8 = op.setWidth 8 ∧ (joinFields op depth nch).extractLsb' 24 8 = 0 := by
  have := op.isLt
  have := depth.isLt
  have := nch.isLt
  have : (0 : Byte).toNat = 0 := rfl
  constructor <;> apply BitVec.eq_of_toNat_eq <;>
    simp only [joinFields, BitVec.extractLsb'_toNat, BitVec.toNat_ofNat, BitVec.toNat_setWidth, Nat.shiftRight_eq_div_pow] <;>
    omega

theorem TableRow.nop (depth nch : Byte) : TableRow.Statement (.nop depth nch) := TableRow.of_fields 0 depth nch
theorem TableRow.encode (depth nch : Byte) : TableRow.Statement (.encode depth nch) := TableRow.of_fields 1 depth nch
theorem TableRow.quant (depth nch : Byte) : TableRow.Statement (.quant depth nch) := TableRow.of_fields 2 depth nch
theorem TableRow.clear (depth nch : Byte) : TableRow.Statement (.clear depth nch) := TableRow.of_fields 3 depth nch

end Sys2Proof.Laws
end

