-- ==== Sys2Proof/Laws/Stream.lean ====
section
/-! SUPPORT. Helpers for the byte stream: lists made of blocks of one length, and the division of a stream offset into sample,
channel and byte. -/

namespace Sys2Proof.Machine

/-- The length of a list of `n` blocks of length `len`. -/
theorem length_flatMap_range {α : Type} (n len : Nat) (f : Nat → List α) (h : ∀ i, (f i).length = len) :
    ((List.range n).flatMap f).length = n * len := by
  simp [List.length_flatMap, h]

/-- Entry `r` of block `i` of a list of `n` blocks of length `len`. -/
theorem getElem?_flatMap_range {α : Type} (n len : Nat) (f : Nat → List α) (h : ∀ i, (f i).length = len) {i r : Nat}
    (hi : i < n) (hr : r < len) : ((List.range n).flatMap f)[i * len + r]? = (f i)[r]? := by
  induction n with
  | zero => omega
  | succ n ih =>
    rw [List.range_succ, List.flatMap_append]
    have hl := length_flatMap_range n len f h
    rcases Nat.lt_succ_iff_lt_or_eq.mp hi with hlt | rfl
    · rw [List.getElem?_append_left, ih hlt]
      rw [hl]
      nlinarith
    · rw [List.getElem?_append_right (by rw [hl]; omega), hl]
      simp

@[simp] theorem packBytes_length (d : Depth) (q : Int) : (packBytes d q).length = d.bytes := by simp [packBytes]

theorem packBytes_getElem? (d : Depth) (q : Int) {b : Nat} (hb : b < d.bytes) :
    (packBytes d q)[b]? = some (codeByte d q b) := by simp [packBytes, hb]

/-- A stream offset of a job is byte `k mod bps` of sample slot `k / bps`, and its sample and channel exist. -/
theorem JobRecord.slot_bounds {R : JobRecord} {k : Nat} (h : k < R.len) :
    k / R.bps / R.ch < R.n.toNat ∧ k / R.bps % R.ch < R.ch ∧ k % R.bps < R.bps ∧
      (k / R.bps / R.ch * R.ch + k / R.bps % R.ch) * R.bps + k % R.bps = k := by
  have hb : 0 < R.bps := R.depth.bytes_pos
  have hc : 0 < R.ch := R.layout.channels_pos
  refine ⟨?_, Nat.mod_lt _ hc, Nat.mod_lt _ hb, ?_⟩
  · rw [Nat.div_div_eq_div_mul, Nat.div_lt_iff_lt_mul (Nat.mul_pos hb hc)]
    calc k < R.ch * R.n.toNat * R.bps := h
      _ = R.n.toNat * (R.bps * R.ch) := by ring
  · rw [Nat.div_add_mod', Nat.div_add_mod']

end Sys2Proof.Machine
end

