-- ==== Sys2Proof/Tests/Slice0.lean ====
section
/-! SUPPORT. Tests: each expected value is a vector of 95_test_vectors.md (named V-...) or written out from the rule named.
After them, for every statement with hypotheses, a witness: a state and operands that meet all of them. -/

namespace Sys2Proof.Tests

open Sys2Proof Sys2Proof.Machine

/-! ### Helpers -/

/-- A value of the next state, none after a stop. -/
def after {α : Type} (o : Host.Outcome State Fault Refusal) (f : State → α) : Option α :=
  match o with
  | .next t => some (f t)
  | .fault _ | .refused _ => none

/-- The refusal, if the outcome is one. -/
def refusal (o : Host.Outcome State Fault Refusal) : Option Refusal :=
  match o with
  | .refused r => some r
  | .next _ | .fault _ => none

/-- Store words in memory. -/
def words (ws : List (Nat × Word)) : Memory := ws.foldl (fun m w => m.writeAll w.1 (wordBytes w.2)) []

/-- The base registers of 95_test_vectors.md section 2.3, with the memory of section 2.4. -/
def base : State := { State.reset with
  src0 := 0x1000, src1 := 0x1100, len0 := 2, len1 := 2, dst := 0x2000, dstCap := 16
  mem := words [(0x1000, 0x3F800000), (0x1004, 0xBF800000), (0x1100, 0xBF800000), (0x1104, 0x3F800000)] }

/-- STATUS after a CMD write. -/
def statusAfter (w : Word) (s : State) : Option Word := after (s.writeCmdReg w) (·.readReg .status)

/-- What is seen after a CMD write and one engine step that does all of the job. -/
def outcome {α : Type} (w : Word) (s : State) (f : State → α) : Option α :=
  (after (s.writeCmdReg w) fun t => t.job.map fun J => f (t.engineTurn J true (fun _ _ => false) fun _ => false)).join

/-- STATUS, OUT_LEN and OUT_FMT, and memory bytes from 0x2000. -/
def seen (len : Nat) (s : State) : Word × Word × Word × List Byte :=
  (s.readReg .status, s.readReg .outLen, s.readReg .outFmt, (List.range len).map fun k => s.mem.read (0x2000 + k))

/-! ### Ill-formed lines are refused, line by line at the bound (R110, R111) -/

theorem test_wellFormed_refuses :
    assemble (.wr .cmd (2 ^ 32)) = none ∧ assemble (.poll .status (2 ^ 32) 0) = none ∧
    assemble (.poll .status 1 (2 ^ 32)) = none ∧ assemble (.mw8 (2 ^ 32) 0) = none ∧ assemble (.mw8 0 256) = none ∧
    assemble (.mw32 (2 ^ 32) 0) = none ∧ assemble (.mw32 0 (2 ^ 32)) = none ∧ assemble (.mr8 (2 ^ 32) 0) = none ∧
    assemble (.encode 256 1) = none ∧ assemble (.encode 16 256) = none ∧ assemble (.quant 256) = none := by decide

theorem test_wellFormed_accepts :
    assemble (.wr .cmd (2 ^ 32 - 1)) = some (writeCmd 0xFFFFFFFF) ∧
    assemble (.encode 255 255) = some (writeCmd 0x00FFFF01) ∧ assemble (.quant 255) = some (writeCmd 0x0000FF02) := by
  decide

/-! ### Words written out from the format (R100, R101; the vectors of 2.5) -/

/-- Fields at 31..24, 23..16, 15..8, 7..4, 3..0. -/
theorem test_decode_each_row :
    decode 0b00000000_11111111_11111111_0000_0000#32 = .ok (.nop 255 255) ∧
    decode 0b00000000_00000010_00010000_0000_0001#32 = .ok (.encode 16 2) ∧
    decode 0b00000000_00000101_00001000_0000_0010#32 = .ok (.quant 8 5) ∧
    decode 0b00000000_10000000_00000001_0000_0011#32 = .ok (.clear 1 128) := ⟨rfl, rfl, rfl, rfl⟩

/-- V-CMD-3 to V-CMD-7. -/
theorem test_decode_illegal :
    decode 0x10000000 = .error .rsv1 ∧ decode 0x00000010 = .error .rsv0 ∧ decode 0x00000004 = .error .reservedOp ∧
    decode 0x0000000F = .error .reservedOp ∧ decode 0x01001001 = .error .rsv1 := ⟨rfl, rfl, rfl, rfl, rfl⟩

theorem test_decodeTableWord :
    decodeTableWord 32 0x00021001 = some (.encode 16 2) ∧ decodeTableWord 32 0x10 = none ∧
    decodeTableWord 64 0 = none := by decide

/-- The listing of section 2.5. -/
theorem test_disassemble :
    disassemble 0x00030801 = .cmd (.encode 8 3) ∧ disassemble 0x00001802 = .cmd (.quant 24) ∧
    disassemble 0x00FFFF03 = .cmd .clear ∧ disassemble 0x01001001 = .word 0x01001001 := by decide

/-! ### The commands -/

/-- V-CMD-1 and V-CMD-2. -/
theorem test_nop :
    after ({ State.reset with status := ⟨true, false, false, 0, 0⟩ }.writeCmdReg 0) (·.readReg .status) = some 0x2 ∧
    after (State.reset.writeCmdReg 0x00FFFF00) (·.readReg .cmd) = some 0x00FFFF00 := by decide

/-- V-CMD-8 and V-CMD-9. -/
theorem test_clear :
    statusAfter 0x00000003 { State.reset with status := ⟨false, true, false, 1, 2⟩ } = some 0 ∧
    statusAfter 0x00FFFF03 { State.reset with status := ⟨true, false, true, 0, 0⟩ } = some 0 := by decide

/-- V-QC-1, V-QC-2, and V-Q16-13 and V-Q8-11 (a product rounded to binary32 would give 16384 and 64). -/
theorem test_quant :
    after ({ State.reset with qin := 0xBF800000 }.writeCmdReg 0x00001002) (fun t => (t.readReg .status, t.qout)) =
      some (0x2, 0xFFFF8001) ∧
    after ({ State.reset with qin := 0xBF800000 }.writeCmdReg 0x00000802) (·.qout) = some 0xFFFFFF81 ∧
    after ({ State.reset with qin := 0x3F000100 }.writeCmdReg 0x00001002) (·.qout) = some 0x3FFF ∧
    after ({ State.reset with qin := 0x3F010204 }.writeCmdReg 0x00000802) (·.qout) = some 0x3F := by decide

/-- V-QC-5, V-QC-6 and V-QC-8. -/
theorem test_quant_errors :
    statusAfter 0x00000002 State.reset = some 0x204 ∧ statusAfter 0x00001812 State.reset = some 0x304 ∧
    after ({ State.reset with qout := 0xFFFF8001 }.writeCmdReg 0x00001802) (fun t => (t.readReg .status, t.qout)) =
      some (0x204, 0xFFFF8001) := by decide

/-- V-ENC-2, V-ENC-1, V-ENC-4, V-ENC-9, V-ENC-14, V-ENC-15, V-ENC-16, V-ENC-20: each check before the next. -/
theorem test_encode_errors :
    statusAfter 0x00001801 base = some 0x204 ∧
    statusAfter 0x00001001 base = some 0x1104 ∧
    statusAfter 0x00021001 { base with len0 := 3, dstCap := 0 } = some 0x2104 ∧
    statusAfter 0x00011001 { base with src0 := 0xFFFFFFFC, dstCap := 0 } = some 0x3104 ∧
    statusAfter 0x00011001 { base with len0 := 1, dst := 0xFFFFFFFF, dstCap := 1 } = some 0x4104 ∧
    statusAfter 0x00011001 { base with src0 := 0x2000, len0 := 1, dst := 0xFFFFFFFF, dstCap := 2 } = some 0x5104 ∧
    statusAfter 0x00011001 { base with len0 := 4, dst := 0x100E } = some 0x6104 ∧
    statusAfter 0x00021001 { base with dst := 0x1104 } = some 0x6104 := by decide

/-- V-PK-1 and V-PK-4. -/
theorem test_encode_output :
    outcome 0x00021001 base (seen 8) = some (0x2, 8, 0x00021002, [0xFF, 0x7F, 0x01, 0x80, 0x01, 0x80, 0xFF, 0x7F]) ∧
    outcome 0x00FF0801 base (seen 4) = some (0x2, 4, 0x00010802, [0x7F, 0x81, 0x81, 0x7F]) := by decide

/-! ### The host's operations, the engine's turns and the interface -/

/-- The job of V-PK-1, just accepted. -/
def record : JobRecord := { src0 := 0x1000, src1 := 0x1100, n := 2, layout := .stereo, depth := .d16, dst := 0x2000 }

/-- The state of V-PK-1 with its job accepted. -/
def running : State := { base with cmd := 0x00021001, job := some (Job.fresh record 0), draws := 1 }

/-- R167: a first turn that reads channel 1 and writes its sample 0, then a last turn, gives the bytes of V-PK-1; after the
first turn only stream bytes 2 and 3 are written. -/
theorem test_engine_any_order :
    let first := running.engineTurn (Job.fresh record 0) false (fun c _ => c == 1) (fun k => k == 2 || k == 3)
    seen 8 first = (0x1, 0, 0, [0, 0, 0x01, 0x80, 0, 0, 0, 0]) ∧
    (first.job.map fun J => seen 8 (first.engineTurn J true (fun _ _ => false) fun _ => false)) =
      some (0x2, 8, 0x00021002, [0xFF, 0x7F, 0x01, 0x80, 0x01, 0x80, 0xFF, 0x7F]) := by decide

/-- V-BSY-1 and V-IRQ-1: CLEAR while BUSY sets DROP only; irq is low for 0x9 and high for 0x2104. -/
theorem test_busy_and_irq :
    after (running.writeCmdReg 0x00000003) (fun t => (t.readReg .status, t.readReg .cmd, { t with ie := true }.irq)) =
      some (0x9, 0x00021001, false) ∧
    { State.reset with ie := true, status := ⟨false, true, false, 1, 2⟩ }.irq = true := by decide

/-- V-REG-2, V-REG-3, V-REG-6: ID keeps its constant, CTRL keeps bit 0, offset 0x3C reads 0. -/
theorem test_registers :
    after (execHostOp (.wr .word 0x00 0xFFFFFFFF) State.reset) (·.readReg .id) = some 0x00010203 ∧
    after (execHostOp (.wr .word 0x04 0xFFFFFFFF) State.reset) (·.readReg .ctrl) = some 1 ∧
    after (execHostOp (.wr .word 0x3C 0xFFFFFFFF) State.reset) (·.readReg .reserved) = some 0 := by decide

/-- R110, R71 (program P1, line 2): a word is stored least significant byte first. -/
theorem test_host_word_store :
    after (execHostOp (.mw32 0x1004 0x3F000000) State.reset) (fun t => (t.mem.read 0x1006, t.mem.read 0x1007, t.mem.length)) =
      some (0x00, 0x3F, 1) := by decide

/-- V-QC-1 and V-CMD-4 as the first step after reset. -/
theorem test_step_first_word :
    after (step ({ State.reset with qin := 0xBF800000 }.withFetchWord 32 0x00001002)) (·.qout) = some 0xFFFF8001 ∧
    after (step (State.reset.withFetchWord 32 0x00000010)) (·.readReg .status) = some 0x304 ∧
    after (step (State.reset.withFetchWord 32 0x00010801)) (·.readReg .status) = some 0x1 := by decide

/-- R75: a word store that ends on the first destination byte races with the job, one just below does not. -/
theorem test_word_store_during_job :
    (after (execHostOp (.mw32 0x1FFD 0x11223344) running) (·.job)).join.map (·.prog.raced) = some true ∧
    (after (execHostOp (.mw32 0x1FFC 0x11223344) running) (·.job)).join = some (Job.fresh record 0) := by decide

/-! ### Witnesses: states and operands that meet a statement's hypotheses -/

/-- An outcome is a next state if that is the state it shows. -/
theorem outcome_next {o : Host.Outcome State Fault Refusal} {t : State} (h : after o id = some t) : o = .next t := by
  cases o with
  | next s => exact congrArg _ (Option.some.inj h)
  | fault _ => cases h
  | refused _ => cases h

theorem witness_decode_hypothesis : decode 0x00FF0803 = .ok (.clear 8 255) := rfl

theorem witness_assembler : assemble (.wr .cmd 0x10) = some (writeCmd 0x10) ∧ decode 0x10 = .error .rsv0 ∧
    (255 : Nat) ≤ 255 ∧ (255 : Nat) < 256 := ⟨by decide, rfl, by decide, by decide⟩

theorem witness_disassembly : decode 0x10 = .error .rsv0 ∧ disassemble 0x00051002 = .cmd (.quant 16) :=
  ⟨rfl, by decide⟩

/-- Idle: NopRecordsItsWordOnly, ClearZeroesStatus, and with the depths at the bounds, the statements on QUANT. -/
theorem witness_idle_depths : base.busy = false ∧ (8 : Byte).toNat = Depth.d8.bits ∧ (16 : Byte).toNat = Depth.d16.bits ∧
    (∀ depth ∈ [(0 : Byte), 7, 9, 15, 17, 255], depth.toNat ≠ 8 ∧ depth.toNat ≠ 16) := by decide

theorem witness_quantAndPacker : record.depth = .d16 ∧ 1 < record.n.toNat ∧ 1 < record.layout.channels ∧
    1 < Depth.d16.bits / 8 ∧ base.mem.readWord (record.srcBase 1 + 4 * 1) = { base with qin := 0x3F800000 }.qin := by decide

/-- One state for each answer of encodeVerdict, at the bounds of V-ENC-6, 7, 10, 11, 12, 13, 16 to 19. -/
theorem witness_encodeVerdict :
    encodeVerdict 24 1 base = some (2, 0) ∧ encodeVerdict 16 0 base = some (1, 1) ∧
    encodeVerdict 16 2 { base with len1 := 3 } = some (1, 2) ∧
    encodeVerdict 16 1 { base with src0 := 0xFFFFFFFD, len0 := 1 } = some (1, 3) ∧
    encodeVerdict 16 2 { base with src1 := 0xFFFFFFF9 } = some (1, 3) ∧
    encodeVerdict 16 1 { base with len0 := 3, dstCap := 5 } = some (1, 4) ∧
    encodeVerdict 16 1 { base with len0 := 1, dst := 0xFFFFFFFF } = some (1, 5) ∧
    encodeVerdict 16 1 { base with len0 := 4, dst := 0x0FF9 } = some (1, 6) ∧
    encodeVerdict 16 2 { base with dst := 0x1104 } = some (1, 6) ∧ base.busy = false := by decide

/-- A job that passes every check at its bounds, for both layouts and depths, on a platform that may launch it. -/
theorem witness_encodeLatches :
    (encodeVerdict 16 1 { base with src0 := 0xFFFFFFFC, len0 := 1 } = none ∧
      encodeVerdict 16 1 { base with len0 := 4, dst := 0x1010 } = none ∧
      encodeVerdict 8 2 base = none ∧ encodeVerdict 16 255 { base with dstCap := 8 } = none) ∧
    (Layout.mono = .mono ↔ (1 : Byte) = 1) ∧ (Layout.stereo = .mono ↔ (2 : Byte) = 1) ∧
    launchable base.platform (latchedRecord .d8 .stereo base) := by
  refine ⟨by decide, by decide, by decide, fun a len _ => ⟨?_, ?_⟩⟩
  · rintro ⟨r, hr, _⟩
    exact absurd hr (List.not_mem_nil)
  · rintro ⟨h, _⟩
    exact absurd h (by decide)

/-- The job of V-PK-1 on a platform without its last destination byte, and on one whose window starts at its destination
(a window that ends there does not meet it), where the byte after the destination and the one after a source are absent. -/
theorem witness_encodeRefused :
    encodeVerdict 16 2 base = none ∧ (latchedRecord .d16 .stereo base).len = 8 ∧
    Lacks { Platform.plain with absent := [⟨0x2007, 1⟩] } 0x2000 8 ∧
    ¬WindowMeets { Platform.plain with sharedSpace := true, regBase := 0x7F } 0x2000 8 ∧
    WindowMeets { sharedSpace := true, regBase := 0x80, absent := [⟨0x2008, 1⟩, ⟨0x1108, 1⟩] } 0x2000 8 ∧
    ¬Lacks { sharedSpace := true, regBase := 0x80, absent := [⟨0x2008, 1⟩, ⟨0x1108, 1⟩] } 0x2000 8 ∧
    (∀ b ∈ (latchedRecord .d16 .stereo base).sources,
      ¬Lacks { sharedSpace := true, regBase := 0x80, absent := [⟨0x2008, 1⟩, ⟨0x1108, 1⟩] } b
        (latchedRecord .d16 .stereo base).srcLen) := by decide

/-- An ENCODE that starts a job: MoreThanTwoChannelsActAsTwo (2 and 255), CommandsKeepWhatTheyDoNotWrite, RateHasNoEffect,
EncodeCompletesWithItsStream. -/
theorem witness_encode_starts :
    exec (.encode 16 2) base = .next running ∧
    exec (.encode 16 255) base = .next { running with cmd := 0x00FF1001 } ∧
    base.busy = false ∧ base.program = [] ∧ running.job = some (Job.fresh record 0) :=
  ⟨outcome_next (by decide), outcome_next (by decide), by decide, rfl, rfl⟩

/-- A mono ENCODE that starts a job. -/
theorem witness_monoEncode :
    (after (exec (.encode 16 1) base) (·.job)).join = some (Job.fresh { record with layout := .mono } 0) := by decide

theorem witness_rate_refused :
    refusal (exec (.encode 16 2) { base with platform := { Platform.plain with absent := [⟨0x2000, 1⟩] } }) =
      some .absentMemory := by decide

theorem witness_busy : running.busy = true := rfl

/-- IllegalWordRaises, each of its three grounds at its lowest value. -/
theorem witness_illegalWord : State.reset.busy = false ∧ (0x10 : Word) &&& 0xF0 ≠ 0 ∧
    (0x01000000 : Word) &&& 0xFF000000 ≠ 0 ∧ 4 ≤ ((0x4 : Word) &&& 0xF).toNat := by decide

theorem witness_dropClears :
    after (execHostOp (writeCmd 0x3) { base with status := ⟨false, false, true, 0, 0⟩ }) (·.status.drop) = some false ∧
    after (execHostOp .reset { base with status := ⟨false, false, true, 0, 0⟩ }) (·.status.drop) = some false := by decide

/-- StepRunsTheDecodedCommand: its first clause idle, its second with a job. -/
theorem witness_stepRuns : decode 0x3 = .ok (.clear 0 0) ∧
    { base with program := [writeCmd 0x3] }.job = none ∧
    { running with program := [writeCmd 0x3] }.job = some (Job.fresh record 0) := ⟨rfl, rfl, rfl⟩

theorem witness_finishedRun : State.reset.runOver := ⟨rfl, rfl⟩

/-- OddWindowAccessIsRefused: each width, and each misalignment. -/
theorem witness_oddAccess : AccessSize.byte ≠ .word ∧ AccessSize.double ≠ .word ∧
    (0x01 : BitVec 6).toNat % 4 ≠ 0 ∧ (0x3F : BitVec 6).toNat % 4 ≠ 0 := by decide

/-- PollRepeatsUntilMatch: a WAIT on an idle block matches, a wait for DONE does not. -/
theorem witness_poll : base.job = none ∧ base.readReg .status &&& 0x1 = 0x0 ∧ base.readReg .status &&& 0x2 ≠ 0x2 := by
  decide

/-- The host's memory statements: the last word of memory, and the first address whose word passes it. -/
theorem witness_hostStore : base.platform.absent = [] ∧ base.platform.sharedSpace = false ∧ base.job = none ∧
    (0xFFFFFFFC : Word).toNat + 4 ≤ 2 ^ 32 ∧ 2 ^ 32 < (0xFFFFFFFD : Word).toNat + 4 := by decide

/-- ResetDuringJobSparesOtherBytes. -/
theorem witness_resetDuringJob : running.job = some (Job.fresh record 0) ∧
    (∃ t, execHostOp .reset running = .next t) ∧ record.Legal ∧ record.inSource 0x1107 ∧
    ¬record.inDest 0x2008 := ⟨rfl, ⟨_, rfl⟩, by decide, by decide, by decide⟩

theorem witness_nan : ((0x7F800001 : Word) >>> 23) &&& 0xFF = 0xFF ∧ (0x7F800001 : Word) &&& 0x7FFFFF ≠ 0 := by decide

theorem witness_monotone : ∃ x y : ℚ, sampleValue 0 = some (.fin x) ∧ sampleValue 0x3F800000 = some (.fin y) ∧ x ≤ y := by
  refine ⟨1 * (0 : ℕ) * 2 ^ (-149 : ℤ), 1 * (2 ^ 23 + (0 : ℕ)) * 2 ^ ((127 : ℤ) - 150), rfl, rfl, ?_⟩
  norm_num

/-- The statements on the stream: the last byte of V-PK-1, a legal record, a write inside its destination. -/
theorem witness_stream : 1 < record.n.toNat ∧ 1 < record.layout.channels ∧ 1 < record.depth.bits / 8 ∧ 7 < record.len ∧
    record.Legal ∧ (∀ w ∈ [((7 : Nat), (0xEE : Byte))], w.1 < record.len) := by decide

/-- The invariants hold of the running job of V-PK-1. -/
theorem witness_running_inv : running.Inv ∧ running.Tracks base.mem := by
  refine ⟨⟨by decide, by decide, by decide, by decide, ?_⟩, ?_⟩
  · intro J hJ
    cases hJ
    decide
  · intro J hJ _
    cases hJ
    exact ⟨fun _ _ => rfl, fun e he => absurd he List.not_mem_nil, fun _ _ => (if_neg List.not_mem_nil).symm⟩

/-- A step of the running job, and of the idle state before it: the statements on step, Inv and StatusLegal. -/
theorem witness_step : (∃ t, step running = .next t) ∧ running.engineMoves (Job.fresh record 0) = true ∧
    step { base with program := [writeCmd 0x00021001] } = .next running ∧ base.busy = false ∧
    running.StatusLegal ∧ { base with program := [writeCmd 0x00021001] }.Inv := by
  refine ⟨⟨running.engineStep (Job.fresh record 0), rfl⟩, rfl, outcome_next (by decide), rfl, by decide,
    by decide, by decide, by decide, by decide, ?_⟩
  intro J hJ
  cases hJ

/-- UnracedCompletionHoldsTheStream: the running job of V-PK-1, whose number of steps is used up, completes. -/
theorem witness_completion : ∃ (s s' : State) (J : Job), s.Inv ∧ s.Tracks base.mem ∧ s.job = some J ∧
    J.prog.raced = false ∧ step s = .next s' ∧ s'.busy = false ∧ s'.status.done = true := by
  let J : Job := { Job.fresh record 0 with prog := { (Job.fresh record 0).prog with steps := Config.jobSteps 0 } }
  let s : State := { running with job := some J }
  obtain ⟨⟨h₁, h₂, h₃, h₄, h₅⟩, ht⟩ := witness_running_inv
  have hl : J.lastStep = true := decide_eq_true (Nat.le_refl _)
  refine ⟨s, s.engineStep J, J, ⟨h₁, h₂, h₃, h₄, ?_⟩, ?_, rfl, rfl, rfl, ?_, ?_⟩
  · intro J' hJ'
    cases hJ'
    exact h₅ (Job.fresh record 0) rfl
  · intro J' hJ' hr
    cases hJ'
    exact ht (Job.fresh record 0) rfl hr
  · unfold State.engineStep
    rw [hl]
    rfl
  · unfold State.engineStep
    rw [hl]
    rfl

/-- EarlyLoadSeesOldOrFinalByte at the last byte of the destination. -/
theorem witness_earlyLoad : running.job = some (Job.fresh record 0) ∧ 7 < record.len ∧
    (0x2007 : Word).toNat = record.dst.toNat + 7 ∧ (∃ u, execHostOp (.mr8 0x2007 0) running = .next u) :=
  ⟨rfl, by decide, by decide, _, rfl⟩

/-- HostStoreRacesOnlyInTheRegions: the last byte of the destination and of a source, and the bytes after them; the words
that hit the destination's first byte with their last one, and its last byte with their first one, and those next to them. -/
theorem witness_hostStoreRaces : record.inDest 0x2007 ∧ record.inSource 0x1107 ∧
    ¬(record.inDest 0x2008 ∨ record.inSource 0x2008) ∧ ¬(record.inDest 0x1108 ∨ record.inSource 0x1108) ∧
    record.inDest (0x1FFD + 3) ∧ record.inDest (0x2007 + 0) ∧
    (∀ a ∈ [0x1FFC, 0x2008], ∀ k, k < 4 → ¬(record.inDest (a + k) ∨ record.inSource (a + k))) := by decide

theorem witness_wait : ∃ s : State, s.job = some (Job.fresh record 0) ∧ s.program = [expand .wait] :=
  ⟨{ running with program := [expand .wait] }, rfl, rfl⟩

end Sys2Proof.Tests
end

section
/-! SUPPORT. The flag rules of STATUS (R25) as a predicate of BUSY and the stored fields, and what each update of STATUS
does to them. -/

namespace Sys2Proof.Machine

/-- The flag rules of R25 about a BUSY flag and the stored fields of STATUS, whatever state they stand in. -/
def Status.Legal (busy : Bool) (st : Status) : Prop :=
  ¬(st.done = true ∧ st.err = true) ∧
  (busy = true → st.done = false ∧ st.err = false) ∧
  (st.err = false → st.errcode = 0 ∧ st.errinfo = 0) ∧
  (st.err = true → st.errcode ≠ 0) ∧
  (st.errinfo ≠ 0 → st.errcode = 1) ∧
  st.errcode.toNat ≤ 3 ∧ st.errinfo.toNat ≤ 6

theorem State.statusLegal_iff (s : State) : s.StatusLegal ↔ s.status.Legal s.busy := Iff.rfl

/-- STATUS is legal in a state once its BUSY and its stored fields are known to be. -/
theorem State.statusLegal_of {t : State} {busy : Bool} {st : Status} (hb : t.busy = busy) (hst : t.status = st)
    (h : st.Legal busy) : t.StatusLegal := by
  subst hb hst
  exact h

namespace Status

/-- No rule speaks of DROP. -/
theorem Legal.withDrop {busy : Bool} {st : Status} (h : st.Legal busy) (d : Bool) :
    Legal busy { st with drop := d } := h

theorem legal_reset : Status.reset.Legal false := by unfold Legal; decide

/-- With the last result cleared nothing is left to break a rule, and a job may start. -/
theorem legal_clearResult (busy : Bool) (st : Status) : st.clearResult.Legal busy := by simp [Legal]

/-- Every error's codes are a pair that R220 and R227 allow. -/
theorem legal_raise (e : CmdError) (st : Status) : (st.clearResult.raise e).Legal false := by
  have codes : e.errcode ≠ 0 ∧ (e.errinfo ≠ 0 → e.errcode = 1) ∧ e.errcode.toNat ≤ 3 ∧ e.errinfo.toNat ≤ 6 := by
    cases e <;> decide
  simpa [Legal] using codes

/-- DONE may be set when no error stands; it ends the job, if there was one. -/
theorem Legal.setDone {busy : Bool} {st : Status} (h : st.Legal busy) (he : st.err = false) : st.setDone.Legal false := by
  obtain ⟨-, -, hcodes, -⟩ := h
  simp [Legal, he, hcodes he]

/-- A running job leaves no error standing. -/
theorem Legal.err_of_busy {st : Status} (h : st.Legal true) : st.err = false := by
  obtain ⟨-, hbusy, -⟩ := h
  exact (hbusy rfl).2

end Status

end Sys2Proof.Machine
end

section
/-! SUPPORT. The word of STATUS and of CTRL, bit by bit (R23, R25). -/

namespace Sys2Proof.Machine

/-- No field of STATUS overflows its place, so the word is the plain sum of its fields. -/
theorem Status.toNat_word (busy : Bool) (st : Status) : (st.word busy).toNat =
    busy.toNat + st.done.toNat * 2 ^ 1 + st.err.toNat * 2 ^ 2 + st.drop.toNat * 2 ^ 3
      + st.errcode.toNat * 2 ^ 8 + st.errinfo.toNat * 2 ^ 12 := by
  have := busy.toNat_le
  have := st.done.toNat_le
  have := st.err.toNat_le
  have := st.drop.toNat_le
  have := st.errcode.isLt
  have := st.errinfo.isLt
  simp only [Status.word, BitVec.toNat_ofNat]
  omega

/-- A bit of a word is the flag whose value stands at that place of its number. -/
theorem getLsbD_eq_of_digit {w : Word} {k : Nat} {b : Bool} (h : w.toNat / 2 ^ k % 2 = b.toNat) : w.getLsbD k = b := by
  rw [← BitVec.testBit_toNat, Nat.testBit_eq_decide_div_mod_eq, h]
  cases b <;> rfl

/-- A field of a word is the vector whose value stands at that place of its number. -/
theorem extractLsb'_eq_of_digits {w : Word} {start len : Nat} {v : BitVec len}
    (h : w.toNat / 2 ^ start % 2 ^ len = v.toNat) : w.extractLsb' start len = v :=
  BitVec.eq_of_toNat_eq (by rw [BitVec.extractLsb'_toNat, Nat.shiftRight_eq_div_pow, h])

section word
variable (busy : Bool) (st : Status)

/-- The flags of STATUS at their bits (R25). -/
theorem Status.word_flags : (st.word busy).getLsbD 0 = busy ∧ (st.word busy).getLsbD 1 = st.done ∧
    (st.word busy).getLsbD 2 = st.err ∧ (st.word busy).getLsbD 3 = st.drop := by
  have := busy.toNat_le
  have := st.done.toNat_le
  have := st.err.toNat_le
  have := st.drop.toNat_le
  refine ⟨?_, ?_, ?_, ?_⟩ <;> apply getLsbD_eq_of_digit <;> rw [Status.toNat_word] <;> omega

/-- The codes of STATUS at their bits, and 0 in the reserved ones (R25). -/
theorem Status.word_codes : (st.word busy).extractLsb' 4 4 = 0 ∧ (st.word busy).extractLsb' 8 4 = st.errcode ∧
    (st.word busy).extractLsb' 12 4 = st.errinfo ∧ (st.word busy).extractLsb' 16 16 = 0 := by
  have := busy.toNat_le
  have := st.done.toNat_le
  have := st.err.toNat_le
  have := st.drop.toNat_le
  have := st.errcode.isLt
  have := st.errinfo.isLt
  have : (0 : BitVec 4).toNat = 0 := rfl
  have : (0 : BitVec 16).toNat = 0 := rfl
  refine ⟨?_, ?_, ?_, ?_⟩ <;> apply extractLsb'_eq_of_digits <;> rw [Status.toNat_word] <;> omega

end word

theorem State.readReg_status (s : State) : s.readReg .status = s.status.word s.busy := rfl

/-- CTRL reads IE in bit 0 and 0 above (R23). -/
theorem State.readReg_ctrl (s : State) : s.readReg .ctrl = if s.ie then 1 else 0 := by
  cases h : s.ie <;> simp [State.readReg, h]

theorem State.readReg_ctrl_bit (s : State) : (s.readReg .ctrl).getLsbD 0 = s.ie := by
  cases h : s.ie <;> simp [State.readReg_ctrl, h]

end Sys2Proof.Machine
end

section
/-! SUPPORT. The register file: what a register reads after a host write (R21) and after reset (R43). -/

namespace Sys2Proof.Machine

/-- A host write reaches no other register than the one it names. -/
theorem State.readReg_writeParam (s : State) (r r' : Reg) (v : Word) :
    (s.writeParam r v).readReg r' = if r' = r then (s.writeParam r v).readReg r else s.readReg r' := by
  cases r <;> cases r' <;> rfl

theorem State.readReg_writeParam_ne (s : State) {r r' : Reg} (v : Word) (h : r' ≠ r) :
    (s.writeParam r v).readReg r' = s.readReg r' := by rw [State.readReg_writeParam, if_neg h]

/-- A parameter register takes the word whole. -/
theorem State.readReg_writeParam_full (s : State) {r : Reg} (v : Word) (h : r ∈ fullRegs) :
    (s.writeParam r v).readReg r = v := by
  fin_cases h <;> rfl

/-- CTRL takes bit 0 only. -/
theorem State.readReg_writeParam_ctrl (s : State) (v : Word) : (s.writeParam .ctrl v).readReg .ctrl = v &&& 1 :=
  BitVec.and_one_eq_setWidth_ofBool_getLsbD.symm

theorem State.writeParam_readOnly (s : State) {r : Reg} (v : Word) (h : r ∈ readOnlyRegs) : s.writeParam r v = s := by
  fin_cases h <;> rfl

/-- A host write at the offset of a register other than CMD is that register's write (R21). -/
theorem execHostOp_wr (s : State) {r : Reg} (v : Word) (h : r ≠ .cmd) :
    execHostOp (.wr .word r.offset v) s = .next (s.writeParam r v) := by
  simp only [execHostOp, regAccess_offset]
  cases r with
  | cmd => exact absurd rfl h
  | _ => rfl

/-- After reset ID reads its constant and every other register 0 (R43). -/
theorem State.readReg_reset (r : Reg) : State.reset.readReg r = if r = .id then 0x00010203 else 0 := by
  cases r <;> rfl

/-- The reset input leaves no register with another value than the reset state has. -/
theorem State.readReg_resetInput (s : State) (r : Reg) : s.resetInput.readReg r = State.reset.readReg r := by
  cases r <;> rfl

end Sys2Proof.Machine
end

section
/-! SUPPORT. What each command answers, an equation for each way it can end. -/

namespace Sys2Proof.Machine

/-- While BUSY every command is dropped (R24, R225). -/
theorem exec_of_busy {s : State} (h : s.busy = true) (i : Instr) : exec i s = .next s.dropCmd := by
  cases i with
  | nop dp nc => simp only [exec, execNop, State.issue_of_busy h]
  | encode dp nc => simp only [exec, execEncode, State.issue_of_busy h]
  | quant dp nc => simp only [exec, execQuant, State.issue_of_busy h]
  | clear dp nc => simp only [exec, execClear, State.issue_of_busy h]

section idle
variable {s : State} (h : s.busy = false)
include h

theorem exec_nop_idle (dp nc : Byte) : exec (.nop dp nc) s = .next (s.accept (encodeInstr (.nop dp nc))) :=
  State.issue_of_idle h _ _

/-- The body of CLEAR, issued under any word while idle (R201). -/
theorem State.issue_clear_idle (w : Word) :
    (s.issue w fun s => let s := s.clearResult; .next { s with status := s.status.clearDrop }) =
      .next { (s.accept w).clearResult with status := s.status.clearResult.clearDrop } := State.issue_of_idle h _ _

theorem exec_clear_idle (dp nc : Byte) : exec (.clear dp nc) s =
    .next { (s.accept (encodeInstr (.clear dp nc))).clearResult with status := s.status.clearResult.clearDrop } :=
  State.issue_clear_idle h _

theorem exec_quant_unsupported {dp nc : Byte} (hd : Depth.ofField dp = none) : exec (.quant dp nc) s =
    .next ((s.accept (encodeInstr (.quant dp nc))).clearResult.raise .unsupportedFormat) := by
  simp only [exec, execQuant, State.issue_of_idle h, hd]

/-- The body of QUANT at a supported depth, issued under any word while idle (R140). -/
theorem State.issue_quant_idle (w : Word) (d : Depth) :
    (s.issue w fun s => let s := s.clearResult
      .next { s with qout := (code d (quantize s.qin d)).signExtend 32, status := s.status.setDone }) =
      .next { (s.accept w).clearResult with
        qout := (code d (quantize s.qin d)).signExtend 32, status := s.status.clearResult.setDone } :=
  State.issue_of_idle h _ _

theorem exec_quant_supported {dp nc : Byte} {d : Depth} (hd : Depth.ofField dp = some d) : exec (.quant dp nc) s =
    .next { (s.accept (encodeInstr (.quant dp nc))).clearResult with
      qout := (code d (quantize s.qin d)).signExtend 32, status := s.status.clearResult.setDone } := by
  simp only [exec, execQuant, hd]
  exact State.issue_quant_idle h _ d

theorem exec_encode_error {dp nc : Byte} {e : CmdError}
    (hc : (s.encodeStart (encodeInstr (.encode dp nc))).encodeChecks dp nc = .error e) :
    exec (.encode dp nc) s = .next ((s.encodeStart (encodeInstr (.encode dp nc))).raise e) := by
  simp only [exec_encode_idle h, hc]

theorem exec_encode_refused {dp nc : Byte} {R : JobRecord} {r : Refusal}
    (hc : (s.encodeStart (encodeInstr (.encode dp nc))).encodeChecks dp nc = .ok R)
    (hl : launchRefusal s.platform R = some r) : exec (.encode dp nc) s = .refused r := by
  simp only [exec_encode_idle h, hc, hl]

theorem exec_encode_starts {dp nc : Byte} {R : JobRecord}
    (hc : (s.encodeStart (encodeInstr (.encode dp nc))).encodeChecks dp nc = .ok R)
    (hl : launchRefusal s.platform R = none) :
    exec (.encode dp nc) s = .next ((s.encodeStart (encodeInstr (.encode dp nc))).startJob R) := by
  simp only [exec_encode_idle h, hc, hl]

end idle

/-- A CMD write of a legal word is its command (R24, R103). -/
theorem State.writeCmdReg_legal {w : Word} {i : Instr} (h : decode w = .ok i) (s : State) : s.writeCmdReg w = exec i s := by
  simp only [State.writeCmdReg, h]

/-- While BUSY a CMD write of any word, legal or not, is dropped (R24, R225). -/
theorem State.writeCmdReg_of_busy {s : State} (h : s.busy = true) (w : Word) : s.writeCmdReg w = .next s.dropCmd := by
  cases hd : decode w with
  | ok i => rw [State.writeCmdReg_legal hd, exec_of_busy h]
  | error _ => simp only [State.writeCmdReg, hd, State.issueIllegal, State.issue_of_busy h]

/-- The host operation that writes CMD is the issue of its word (R111). -/
theorem execHostOp_writeCmd (w : Word) (s : State) : execHostOp (writeCmd w) s = s.writeCmdReg w := by
  simp only [writeCmd, execHostOp, regAccess_offset, State.writeReg]

/-- The host's move at a CMD write is the issue of its word on the state with that operation taken. -/
theorem State.hostStep_writeCmd {s : State} {w : Word} {rest : List HostOp} (h : s.program = writeCmd w :: rest) :
    s.hostStep = { s with program := rest }.writeCmdReg w := by
  simp only [State.hostStep, h, execHostOp_writeCmd]

/-- While idle a step is the host's move (R246). -/
theorem step_of_idle {s : State} (h : s.job = none) : step s = s.hostStep := by simp only [step, h]

/-- While BUSY a step is the engine's, or the host's and counted (log 3). -/
theorem step_of_job {s : State} {J : Job} (h : s.job = some J) :
    step s = if s.engineMoves J then .next (s.engineStep J) else s.countHostOp.hostStep := by simp only [step, h]

end Sys2Proof.Machine
end

section
/-! SUPPORT. What a command writes (R44), and that RATE is read by none (R33). -/

namespace Sys2Proof.Machine

/-- A command writes CMD and STATUS; QOUT only as QUANT; OUT_LEN, OUT_FMT, the job and the draw counter only as ENCODE. -/
theorem exec_writes_only {i : Instr} {s t : State} (h : exec i s = .next t) :
    ∃ w st q len fmt job draws,
      t = { s with cmd := w, status := st, qout := q, outLen := len, outFmt := fmt, job := job, draws := draws } ∧
      ((∀ depth nch, i ≠ .quant depth nch) → q = s.qout) ∧
      ((∀ depth nch, i ≠ .encode depth nch) →
        len = s.outLen ∧ fmt = s.outFmt ∧ job = s.job ∧ draws = s.draws) := by
  have cases := exec_next_cases h
  generalize encodeInstr i = word at cases
  rcases cases with ⟨-, rfl⟩ | ⟨-, ⟨dp, nc, -, rfl⟩ | ⟨dp, nc, -, rfl⟩ | ⟨dp, nc, -, rfl⟩ |
    ⟨dp, nc, d, rfl, -, rfl⟩ | ⟨dp, nc, e, rfl, -, rfl⟩ | ⟨dp, nc, R, rfl, -, -, rfl⟩⟩
  case inl | inr.inl | inr.inr.inl | inr.inr.inr.inl =>
    exact ⟨_, _, _, _, _, _, _, rfl, fun _ => rfl, fun _ => ⟨rfl, rfl, rfl, rfl⟩⟩
  case inr.inr.inr.inr.inl =>
    exact ⟨_, _, _, _, _, _, _, rfl, fun hq => absurd rfl (hq dp nc), fun _ => ⟨rfl, rfl, rfl, rfl⟩⟩
  case inr.inr.inr.inr.inr.inl | inr.inr.inr.inr.inr.inr =>
    exact ⟨_, _, _, _, _, _, _, rfl, fun _ => rfl, fun he => absurd rfl (he dp nc)⟩

/-- The state with another value in RATE. -/
def State.withRate (s : State) (v : Word) : State := { s with rate := v }

/-- The outcome with another value in RATE of its next state, if it has one. -/
def outcomeWithRate (v : Word) : Host.Outcome State Fault Refusal → Host.Outcome State Fault Refusal
  | .next t => .next (t.withRate v)
  | .fault f => .fault f
  | .refused r => .refused r

/-- No command reads RATE (R33): whatever it answers, it answers the same with another value there. -/
theorem exec_withRate (i : Instr) (s : State) (v : Word) :
    exec i (s.withRate v) = outcomeWithRate v (exec i s) := by
  cases hb : s.busy with
  | true => rw [exec_of_busy hb, exec_of_busy (s := s.withRate v) hb]; rfl
  | false =>
    have hb' : (s.withRate v).busy = false := hb
    cases i with
    | nop dp nc => rw [exec_nop_idle hb, exec_nop_idle hb']; rfl
    | clear dp nc => rw [exec_clear_idle hb, exec_clear_idle hb']; rfl
    | quant dp nc =>
      cases hd : Depth.ofField dp with
      | none => rw [exec_quant_unsupported hb hd, exec_quant_unsupported hb' hd]; rfl
      | some d => rw [exec_quant_supported hb hd, exec_quant_supported hb' hd]; rfl
    | encode dp nc =>
      cases hc : (s.encodeStart (encodeInstr (.encode dp nc))).encodeChecks dp nc with
      | error e => rw [exec_encode_error hb hc, exec_encode_error hb' hc]; rfl
      | ok R =>
        cases hl : launchRefusal s.platform R with
        | some r => rw [exec_encode_refused hb hc hl, exec_encode_refused hb' hc hl]; rfl
        | none => rw [exec_encode_starts hb hc hl, exec_encode_starts hb' hc hl]; rfl

/-- No engine step reads RATE (R33). -/
theorem State.engineStep_withRate (s : State) (J : Job) (v : Word) :
    (s.withRate v).engineStep J = (s.engineStep J).withRate v := by
  unfold State.engineStep
  cases J.lastStep <;> rfl

end Sys2Proof.Machine
end

section
/-! SUPPORT. A mono ENCODE reads neither SRC1 nor LEN1 (R26, R28). -/

namespace Sys2Proof.Machine

/-- The record with another base for channel 1. -/
def JobRecord.withSrc1 (R : JobRecord) (v : Word) : JobRecord := { R with src1 := v }

section mono
variable {R : JobRecord} (v : Word)

/-- A mono record's sources are channel 0's alone (R161). -/
theorem JobRecord.sources_withSrc1 (h : R.layout = .mono) : (R.withSrc1 v).sources = R.sources := by
  simp [JobRecord.sources, JobRecord.withSrc1, JobRecord.ch, h, Layout.channels, JobRecord.srcBase]

/-- The stream of a mono record holds samples of channel 0 alone (R161, R163). -/
theorem encodeStream_withSrc1 (h : R.layout = .mono) (m : Memory) :
    encodeStream (R.withSrc1 v) m = encodeStream R m := by
  simp [encodeStream, JobRecord.withSrc1, JobRecord.ch, h, Layout.channels, JobRecord.srcBase]

/-- The platform's checks of a mono record do not see channel 1's base. -/
theorem launchRefusal_withSrc1 (p : Platform) (h : R.layout = .mono) :
    launchRefusal p (R.withSrc1 v) = launchRefusal p R := by
  unfold launchRefusal
  rw [JobRecord.sources_withSrc1 v h]
  rfl

end mono

/-- The state with other values in the registers of channel 1. -/
def State.withChannelOne (s : State) (src1 len1 : Word) : State := { s with src1 := src1, len1 := len1 }

/-- The checks of a mono ENCODE come to the same end with other values in SRC1 and LEN1 (R166). -/
theorem State.encodeChecks_mono (s : State) (depth : Byte) (src1 len1 : Word) :
    (s.withChannelOne src1 len1).encodeChecks depth 1 = (s.encodeChecks depth 1).map (·.withSrc1 src1) := by
  unfold State.encodeChecks
  cases Depth.ofField depth with
  | none => rfl
  | some d =>
    have record : (s.withChannelOne src1 len1).recordOf d .mono = (s.recordOf d .mono).withSrc1 src1 := rfl
    have sources := JobRecord.sources_withSrc1 (R := s.recordOf d .mono) src1 rfl
    have range : ((s.recordOf d .mono).withSrc1 src1).srcOutOfRange ↔ (s.recordOf d .mono).srcOutOfRange := by
      unfold JobRecord.srcOutOfRange; rw [sources]; rfl
    have overlaps : ((s.recordOf d .mono).withSrc1 src1).overlaps ↔ (s.recordOf d .mono).overlaps := by
      unfold JobRecord.overlaps; rw [sources]; rfl
    have len : ((s.recordOf d .mono).withSrc1 src1).len = (s.recordOf d .mono).len := rfl
    have dst : ((s.recordOf d .mono).withSrc1 src1).dst = (s.recordOf d .mono).dst := rfl
    have cap : (s.withChannelOne src1 len1).dstCap = s.dstCap := rfl
    have mono : Layout.ofField 1 = some .mono := rfl
    simp only [mono, record, range, overlaps, len, dst, cap, reduceCtorEq, false_and, if_false]
    split_ifs <;> rfl

end Sys2Proof.Machine
end

section
/-! SUPPORT. What a host operation can do to the block: issue a word, reset it, or neither. -/

namespace Sys2Proof.Machine

/-- The same job as far as its work goes: its record and its accesses, not the model's bookkeeping of turns and races. -/
structure Job.SameWork (J J' : Job) : Prop where
  params : J'.params = J.params
  fetched : J'.prog.fetched = J.prog.fetched
  written : J'.prog.written = J.prog.written

theorem Job.SameWork.streamByte {J J' : Job} (h : J.SameWork J') (k : Nat) : J'.streamByte k = J.streamByte k := by
  simp only [Job.streamByte, Job.sample, h.params, h.fetched]

theorem Job.SameWork.progressLegal {J J' : Job} (h : J.SameWork J') (hl : J.ProgressLegal) : J'.ProgressLegal := by
  simpa only [Job.ProgressLegal, h.streamByte, h.params, h.fetched, h.written] using hl

theorem Job.sameWork_noteStore (J : Job) (a : Nat) : J.SameWork (J.noteStore a) := by
  unfold Job.noteStore
  split_ifs <;> exact ⟨rfl, rfl, rfl⟩

/-- What every host operation that neither issues a word nor resets keeps of the block: STATUS, OUT_FMT, OUT_LEN and the work
of the job; and memory and the named values keep their canonical form. -/
structure State.Quiet (s t : State) : Prop where
  status : t.status = s.status
  outFmt : t.outFmt = s.outFmt
  outLen : t.outLen = s.outLen
  job : ∃ f : Job → Job, (∀ J : Job, J.SameWork (f J)) ∧ t.job = s.job.map f
  mem : s.mem.wf → t.mem.wf
  temps : TempsSorted s.temps → TempsSorted t.temps

namespace State

/-- An update that leaves all of these fields alone is quiet. -/
theorem Quiet.of_same {s t : State} (hst : t.status = s.status) (hfmt : t.outFmt = s.outFmt) (hlen : t.outLen = s.outLen)
    (hjob : t.job = s.job) (hmem : t.mem = s.mem) (htemps : TempsSorted s.temps → TempsSorted t.temps) : s.Quiet t :=
  ⟨hst, hfmt, hlen, ⟨id, fun _ => ⟨rfl, rfl, rfl⟩, by simpa using hjob⟩, fun h => hmem ▸ h, htemps⟩

theorem Quiet.trans {s t u : State} (h : s.Quiet t) (h' : t.Quiet u) : s.Quiet u := by
  obtain ⟨f, hf, hj⟩ := h.job
  obtain ⟨g, hg, hj'⟩ := h'.job
  refine ⟨h'.status.trans h.status, h'.outFmt.trans h.outFmt, h'.outLen.trans h.outLen, ⟨g ∘ f, fun J => ?_, ?_⟩,
    fun hm => h'.mem (h.mem hm), fun ht => h'.temps (h.temps ht)⟩
  · exact ⟨(hg _).params.trans (hf J).params, (hg _).fetched.trans (hf J).fetched, (hg _).written.trans (hf J).written⟩
  · rw [hj', hj, Option.map_map]

theorem Quiet.busy {s t : State} (h : s.Quiet t) : t.busy = s.busy := by
  obtain ⟨f, -, hj⟩ := h.job
  rw [State.busy, State.busy, hj, Option.isSome_map]

theorem quiet_withProgram (s : State) (p : List HostOp) : s.Quiet { s with program := p } :=
  .of_same rfl rfl rfl rfl rfl id

theorem quiet_setTemp (s : State) (n : Nat) (v : Word) : s.Quiet (s.setTemp n v) :=
  .of_same rfl rfl rfl rfl rfl (cellsSet_sorted n v)

theorem quiet_writeParam (s : State) (r : Reg) (v : Word) : s.Quiet (s.writeParam r v) :=
  .of_same (by simp) (by simp) (by simp) (by simp) (by simp) (by simp)

theorem quiet_loadByte (s : State) (a n : Nat) : s.Quiet (s.loadByte a n) := by
  obtain ⟨v, k, h⟩ := s.loadByte_cases a n
  rw [h]
  exact .of_same rfl rfl rfl rfl rfl (cellsSet_sorted n v)

theorem quiet_countHostOp (s : State) : s.Quiet s.countHostOp := by
  refine ⟨rfl, rfl, rfl, ⟨_, ?_, s.countHostOp_job⟩, id, id⟩
  exact fun _ => ⟨rfl, rfl, rfl⟩

theorem quiet_storeByte (s : State) {a : Nat} (b : Byte) (ha : a < 2 ^ 32) : s.Quiet (s.storeByte a b) :=
  ⟨rfl, rfl, rfl, ⟨_, fun J => J.sameWork_noteStore a, rfl⟩, fun h => Memory.write_wf h ha b, id⟩

theorem quiet_storeWord (s : State) {a : Nat} (v : Word) (ha : a + 4 ≤ 2 ^ 32) :
    s.Quiet (s.storeBytes a (wordBytes v)) := by
  rw [State.storeBytes_word]
  exact (((s.quiet_storeByte _ (by omega)).trans (quiet_storeByte _ _ (by omega))).trans
    (quiet_storeByte _ _ (by omega))).trans (quiet_storeByte _ _ (by omega))

end State

/-- A register write that answers a next state issued a legal word, raised IllegalCommand, or was quiet. A dropped illegal
word counts as a dropped NOP: while BUSY every word is dropped alike (R24). -/
theorem State.writeReg_block_cases {s t : State} {r : Reg} {v : Word} (h : s.writeReg r v = .next t) :
    (∃ i, exec i s = .next t) ∨
    (s.busy = false ∧ ∃ w, t = (s.accept w).clearResult.raise .illegalCommand) ∨
    s.Quiet t := by
  rcases State.writeReg_next_cases h with ⟨-, i, -, hi⟩ | ⟨-, hb, rfl⟩ | ⟨-, hb, rfl⟩ | ⟨-, rfl⟩
  · exact .inl ⟨i, hi⟩
  · exact .inl ⟨.nop 0 0, exec_of_busy hb _⟩
  · exact .inr (.inl ⟨hb, v, rfl⟩)
  · exact .inr (.inr (s.quiet_writeParam r v))

/-- A host operation that answers a next state issued a legal word, raised IllegalCommand, was quiet, or was the reset
input. -/
theorem execHostOp_block_cases {op : HostOp} {s t : State} (h : execHostOp op s = .next t) :
    (∃ i, exec i s = .next t) ∨
    (s.busy = false ∧ ∃ w, t = (s.accept w).clearResult.raise .illegalCommand) ∨
    s.Quiet t ∨
    (op = .reset ∧ t = s.resetInput) := by
  rcases execHostOp_next_cases h with ⟨r, v, h⟩ | ⟨n, v, rfl⟩ | rfl | rfl | ⟨a, b, ha, rfl⟩ | ⟨a, v, ha, rfl⟩ |
    ⟨a, n, rfl⟩ | ⟨hop, rfl⟩
  case inl =>
    exact (State.writeReg_block_cases h).imp_right (·.imp_right .inl)
  case inr.inr.inr.inr.inr.inr.inr => exact .inr (.inr (.inr ⟨hop, rfl⟩))
  all_goals refine .inr (.inr (.inl ?_))
  · exact s.quiet_setTemp n v
  · exact t.quiet_withProgram t.program
  · exact s.quiet_withProgram _
  · exact s.quiet_storeByte b ha
  · exact s.quiet_storeWord v ha
  · exact s.quiet_loadByte a n

end Sys2Proof.Machine
end

section
/-! SUPPORT. STATUS stays legal (R25) and DROP sticky (R225), operation by operation. -/

namespace Sys2Proof.Machine

theorem exec_statusLegal {i : Instr} {s t : State} (h : exec i s = .next t) (hs : s.StatusLegal) : t.StatusLegal := by
  rcases exec_next_cases h with ⟨-, rfl⟩ | ⟨hb, ⟨dp, nc, -, rfl⟩ | ⟨dp, nc, -, rfl⟩ | ⟨dp, nc, -, rfl⟩ |
    ⟨dp, nc, d, -, -, rfl⟩ | ⟨dp, nc, e, -, -, rfl⟩ | ⟨dp, nc, R, -, -, -, rfl⟩⟩
  case inl => exact (State.statusLegal_iff s).mp hs |>.withDrop true
  case inr.inl => exact hs
  case inr.inr.inl => exact (Status.legal_clearResult _ s.status).withDrop false
  case inr.inr.inr.inl => exact State.statusLegal_of hb rfl (Status.legal_raise _ s.status)
  case inr.inr.inr.inr.inl =>
    exact State.statusLegal_of hb rfl ((Status.legal_clearResult false s.status).setDone rfl)
  case inr.inr.inr.inr.inr.inl => exact State.statusLegal_of hb rfl (Status.legal_raise e s.status)
  case inr.inr.inr.inr.inr.inr => exact Status.legal_clearResult _ s.status

/-- An engine step keeps STATUS and BUSY, or completes: DONE set, BUSY 0 (R167, R168). -/
theorem State.engineStep_status (s : State) (J : Job) :
    ((s.engineStep J).busy = true ∧ (s.engineStep J).status = s.status) ∨
    ((s.engineStep J).busy = false ∧ (s.engineStep J).status = s.status.setDone) := by
  rcases s.engineTurn_cases J J.lastStep (Config.readNow J.prog.draw J.prog.steps)
    (Config.writeNow J.prog.draw J.prog.steps) with ⟨-, h⟩ | ⟨-, h⟩ <;> rw [State.engineStep, h]
  · exact .inr ⟨rfl, rfl⟩
  · exact .inl ⟨rfl, rfl⟩

theorem State.engineStep_statusLegal {s : State} {J : Job} (hj : s.job = some J) (hs : s.StatusLegal) :
    (s.engineStep J).StatusLegal := by
  have hb : s.busy = true := by rw [State.busy, hj]; rfl
  rw [State.statusLegal_iff, hb] at hs
  rcases s.engineStep_status J with ⟨hb', hst⟩ | ⟨hb', hst⟩
  · exact State.statusLegal_of hb' hst hs
  · exact State.statusLegal_of hb' hst (hs.setDone hs.err_of_busy)

theorem State.Quiet.statusLegal {s t : State} (h : s.Quiet t) (hs : s.StatusLegal) : t.StatusLegal :=
  State.statusLegal_of h.busy h.status hs

theorem execHostOp_statusLegal {op : HostOp} {s t : State} (h : execHostOp op s = .next t) (hs : s.StatusLegal) :
    t.StatusLegal := by
  rcases execHostOp_block_cases h with ⟨i, hi⟩ | ⟨hb, w, rfl⟩ | hq | ⟨-, rfl⟩
  · exact exec_statusLegal hi hs
  · exact State.statusLegal_of hb rfl (Status.legal_raise _ s.status)
  · exact hq.statusLegal hs
  · exact Status.legal_reset

/-- The one command that takes DROP from 1 to 0 is a CLEAR accepted while idle (R201, R225). -/
theorem exec_clears_drop {i : Instr} {s t : State} (h : exec i s = .next t) (hs : s.status.drop = true)
    (ht : t.status.drop = false) : s.busy = false ∧ ∃ depth nch, t.cmd = encodeInstr (.clear depth nch) := by
  rcases exec_next_cases h with ⟨-, rfl⟩ | ⟨hb, ⟨dp, nc, -, rfl⟩ | ⟨dp, nc, rfl, rfl⟩ | ⟨dp, nc, -, rfl⟩ |
    ⟨dp, nc, d, -, -, rfl⟩ | ⟨dp, nc, e, -, -, rfl⟩ | ⟨dp, nc, R, -, -, -, rfl⟩⟩
  case inr.inr.inl => exact ⟨hb, dp, nc, rfl⟩
  case inl => simp at ht
  all_goals exact absurd (hs.symm.trans ht) (by decide)

end Sys2Proof.Machine
end

section
/-! SUPPORT. The whole invariant (R25, R31, R40, R70, R167), operation by operation. -/

namespace Sys2Proof.Machine

/-- OUT_FMT of a completed job is one of the four formats (R31). -/
theorem JobRecord.outFmt_mem (R : JobRecord) : R.outFmt ∈ fmtWords := by
  unfold JobRecord.outFmt JobRecord.ch JobRecord.bps
  cases R.layout <;> cases R.depth <;> decide

/-- OUT_FMT and OUT_LEN cleared are legal, with a job or without (R31, R44). -/
theorem State.outLegal_of_cleared {t : State} (hfmt : t.outFmt = 0) (hlen : t.outLen = 0) : t.OutLegal :=
  ⟨by rw [hfmt]; decide, fun _ => ⟨hfmt, hlen⟩⟩

theorem State.Inv.statusLegal {s : State} (h : s.Inv) : s.StatusLegal := by
  obtain ⟨-, -, hst, -⟩ := h
  exact hst

theorem Job.fresh_progressLegal (R : JobRecord) (draw : Nat) : (Job.fresh R draw).ProgressLegal := by
  simp [Job.ProgressLegal, Job.fresh]

/-- Reading more source bytes keeps the account of the reads and of the bytes written (R167). -/
theorem Job.fetch_progressLegal {J : Job} (h : J.ProgressLegal) (take : Nat → Nat → Bool) (m : Memory) :
    (J.fetch take m).ProgressLegal := by
  obtain ⟨hfn, hfs, hwn, hws⟩ := h
  refine ⟨Job.fetch_nodup hfn take m, fun e he => ?_, hwn, fun k hk => ⟨(hws k hk).1, ?_⟩⟩
  · exact (Job.mem_fetch he).elim (hfs e) (·.1)
  · obtain ⟨b, hb⟩ := Option.isSome_iff_exists.mp (hws k hk).2
    exact Option.isSome_iff_exists.mpr ⟨b, Job.fetch_streamByte hb take m⟩

/-- A step's accesses keep the account: what it writes was not written before and has its sample read (R167). -/
theorem Job.afterAccesses_progressLegal {J : Job} (h : J.ProgressLegal) (m : Memory) (take : Nat → Nat → Bool)
    (put : Nat → Bool) : (J.afterAccesses m take put).ProgressLegal := by
  obtain ⟨hfn, hfs, hwn, hws⟩ := Job.fetch_progressLegal h take m
  have ready : ∀ k ∈ ((J.fetch take m).readyBytes put).map (·.1),
      k < J.params.len ∧ k ∉ J.prog.written ∧ ((J.fetch take m).streamByte k).isSome = true := by
    intro k hk
    obtain ⟨w, hw, rfl⟩ := List.mem_map.mp hk
    obtain ⟨hlt, hnew, -, hb⟩ := Job.mem_readyBytes.mp hw
    exact ⟨hlt, hnew, by rw [hb]; rfl⟩
  refine ⟨hfn, hfs, List.nodup_append'.mpr ⟨hwn, Job.readyBytes_nodup _ _, fun k hk hk' => (ready k hk').2.1 hk⟩, ?_⟩
  intro k hk
  rcases List.mem_append.mp hk with hk | hk
  · exact hws k hk
  · exact ⟨(ready k hk).1, (ready k hk).2.2⟩

/-- The bytes that an engine step writes lie in memory when the job is legal (R166 DST_RANGE). -/
theorem State.afterAccesses_wf {s : State} {J : Job} (hm : s.mem.wf) (hR : J.params.Legal) (last : Bool)
    (take : Nat → Nat → Bool) (put : Nat → Bool) : (s.afterAccesses J last take put).mem.wf := by
  obtain ⟨-, -, htop, -⟩ := hR
  refine Memory.writeAll_wf hm _ _ fun w hw => ?_
  have := (Job.mem_readyBytes.mp hw).1
  rw [Job.fetch_params] at this
  omega

/-- Free bytes over a legal job's destination keep memory canonical (R75, R261). -/
theorem Memory.writeAll_freeBytes_wf {m : Memory} {R : JobRecord} (hm : m.wf) (hR : R.Legal) (draw : Nat) :
    (m.writeAll R.dst.toNat (freeBytes draw R.len)).wf := by
  obtain ⟨-, -, htop, -⟩ := hR
  refine Memory.writeAll_wf hm _ _ fun w hw => ?_
  have := mem_freeBytes hw
  omega

theorem State.completeJob_wf {s : State} {J : Job} (hm : s.mem.wf) (hR : J.params.Legal) : (s.completeJob J).mem.wf := by
  unfold State.completeJob
  split_ifs
  · exact Memory.writeAll_freeBytes_wf hm hR _
  · exact hm

/-- An engine step keeps the invariant. -/
theorem State.engineStep_inv {s : State} {J : Job} (hj : s.job = some J) (hs : s.Inv) : (s.engineStep J).Inv := by
  obtain ⟨hm, ht, hst, ⟨hfmt, hout⟩, hjob⟩ := hs
  obtain ⟨hR, hP⟩ := hjob J hj
  have hb : s.busy = true := by rw [State.busy, hj]; rfl
  have hst' := State.engineStep_statusLegal hj hst
  unfold State.engineStep at hst' ⊢
  rcases s.engineTurn_cases J J.lastStep (Config.readNow J.prog.draw J.prog.steps)
    (Config.writeNow J.prog.draw J.prog.steps) with ⟨-, h⟩ | ⟨-, h⟩ <;> rw [h] at hst' ⊢
  · refine ⟨State.completeJob_wf (State.afterAccesses_wf hm hR _ _ _) hR, ht, hst', ⟨J.params.outFmt_mem, ?_⟩, ?_⟩
    · intro h'; cases h'
    · intro J' h'; cases h'
  · refine ⟨State.afterAccesses_wf hm hR _ _ _, ht, hst', ⟨hfmt, fun _ => hout hb⟩, fun J' h' => ?_⟩
    cases h'
    exact ⟨hR, Job.afterAccesses_progressLegal hP _ _ _⟩

/-- A command keeps the invariant; an ENCODE starts a job within its checks only. -/
theorem exec_inv {i : Instr} {s t : State} (h : exec i s = .next t) (hs : s.Inv) : t.Inv := by
  obtain ⟨hm, ht, hst, ⟨hfmt, hout⟩, hjob⟩ := hs
  have hst' := exec_statusLegal h hst
  rcases exec_next_cases h with ⟨-, rfl⟩ | ⟨hb, ⟨dp, nc, -, rfl⟩ | ⟨dp, nc, -, rfl⟩ | ⟨dp, nc, -, rfl⟩ |
    ⟨dp, nc, d, -, -, rfl⟩ | ⟨dp, nc, e, -, -, rfl⟩ | ⟨dp, nc, R, -, hc, -, rfl⟩⟩
  case inr.inr.inr.inr.inr.inl => exact ⟨hm, ht, hst', State.outLegal_of_cleared rfl rfl, hjob⟩
  case inr.inr.inr.inr.inr.inr =>
    refine ⟨hm, ht, hst', State.outLegal_of_cleared rfl rfl, fun J hJ => ?_⟩
    cases hJ
    exact ⟨(State.encodeChecks_ok hc).1, Job.fresh_progressLegal R _⟩
  all_goals exact ⟨hm, ht, hst', ⟨hfmt, hout⟩, hjob⟩

/-- A quiet operation keeps the invariant. -/
theorem State.Quiet.inv {s t : State} (h : s.Quiet t) (hs : s.Inv) : t.Inv := by
  obtain ⟨hm, ht, hst, hout, hjob⟩ := hs
  refine ⟨h.mem hm, h.temps ht, h.statusLegal hst, ?_, fun J' hJ' => ?_⟩
  · rwa [State.OutLegal, h.busy, h.outFmt, h.outLen]
  · obtain ⟨f, hf, hj⟩ := h.job
    obtain ⟨J, hJ, rfl⟩ := Option.map_eq_some_iff.mp (hj.symm.trans hJ')
    obtain ⟨hR, hP⟩ := hjob J hJ
    exact ⟨(hf J).params ▸ hR, (hf J).progressLegal hP⟩

theorem State.reset_inv : State.reset.Inv :=
  ⟨Memory.wf_nil, List.Pairwise.nil, Status.legal_reset, State.outLegal_of_cleared rfl rfl, fun _ h => by cases h⟩

/-- The reset input keeps the invariant: an aborted job's destination lies in memory (R261). -/
theorem State.resetInput_inv {s : State} (hs : s.Inv) : s.resetInput.Inv := by
  obtain ⟨hm, ht, -, -, hjob⟩ := hs
  obtain ⟨-, -, hst, hout, hjob'⟩ := State.reset_inv
  refine ⟨?_, ht, hst, hout, hjob'⟩
  unfold State.resetInput
  split
  · exact hm
  · rename_i J hJ
    exact Memory.writeAll_freeBytes_wf hm (hjob J hJ).1 _

/-- A host operation keeps the invariant. -/
theorem execHostOp_inv {op : HostOp} {s t : State} (h : execHostOp op s = .next t) (hs : s.Inv) : t.Inv := by
  have hst' := execHostOp_statusLegal h hs.statusLegal
  rcases execHostOp_block_cases h with ⟨i, hi⟩ | ⟨-, w, rfl⟩ | hq | ⟨-, rfl⟩
  · exact exec_inv hi hs
  · obtain ⟨hm, ht, -, hout, hjob⟩ := hs
    exact ⟨hm, ht, hst', hout, hjob⟩
  · exact hq.inv hs
  · exact State.resetInput_inv hs

/-- What every engine step, every host operation and every quiet operation keeps, every step keeps: the one case split over
the agents that move. -/
theorem step_preserves {P : State → Prop} (engine : ∀ {s J}, s.job = some J → P s → P (s.engineStep J))
    (host : ∀ {op s t}, execHostOp op s = .next t → P s → P t) (quiet : ∀ {s t}, s.Quiet t → P s → P t)
    {s s' : State} (h : step s = .next s') (hs : P s) : P s' := by
  rcases step_next_cases h with ⟨J, hJ, -, rfl⟩ | ⟨op, rest, -, -, h⟩ | ⟨op, rest, J, -, -, h⟩ | ⟨-, -, rfl⟩
  · exact engine hJ hs
  · exact host h (quiet (s.quiet_withProgram rest) hs)
  · exact host h (quiet (s.quiet_countHostOp.trans (s.countHostOp.quiet_withProgram rest)) hs)
  · exact hs

end Sys2Proof.Machine
end

section
/-! SUPPORT. The statements about the registers, the commands' frames and the machine's invariants, settled (10_state.md). -/

namespace Sys2Proof.Machine

/-! ### Tier 3 -/

/-- Settles O51: the engine, the host and the host's bookkeeping each keep the invariant. -/
theorem stepKeepsTheInvariant : Obligations.StepKeepsTheInvariant := by
  intro s s' hs h
  exact step_preserves State.engineStep_inv execHostOp_inv State.Quiet.inv h hs

/-! ### Tier 2 -/

/-- Settles O52, by the same case split as the whole invariant. -/
theorem stepKeepsStatusLegal : Obligations.StepKeepsStatusLegal := by
  intro s s' hs h
  exact step_preserves State.engineStep_statusLegal execHostOp_statusLegal State.Quiet.statusLegal h hs

/-- Settles O16: the checks of a mono ENCODE give the same answer, and the record differs only in the base of a channel that
no mono record reads. -/
theorem monoEncodeReadsNoChannelOne : Obligations.MonoEncodeReadsNoChannelOne := by
  intro depth s t src1 len1 h
  change ∃ t', exec (.encode depth 1) (s.withChannelOne src1 len1) = .next t' ∧ _
  have busy : (s.withChannelOne src1 len1).busy = s.busy := rfl
  rcases exec_next_cases h with ⟨hb, rfl⟩ | ⟨hb, ⟨_, _, hi, _⟩ | ⟨_, _, hi, _⟩ | ⟨_, _, hi, _⟩ | ⟨_, _, _, hi, _⟩ |
    ⟨dp, nc, e, hi, hc, rfl⟩ | ⟨dp, nc, R, hi, hc, hl, rfl⟩⟩
  case inl =>
    exact ⟨_, exec_of_busy (busy.trans hb) _, rfl, rfl, rfl, rfl, fun _ hidle => by simp [hb] at hidle⟩
  case inr.inr.inr.inr.inr.inl =>
    cases hi
    have hc' := (State.encodeChecks_mono _ depth src1 len1).trans (congrArg _ hc)
    refine ⟨_, exec_encode_error (busy.trans hb) hc', rfl, rfl, rfl, rfl, fun J _ hJ => ?_⟩
    exact ⟨J, hJ, rfl, rfl, rfl, rfl, fun _ => rfl⟩
  case inr.inr.inr.inr.inr.inr =>
    cases hi
    have mono : R.layout = .mono := by
      obtain ⟨-, d, lay, -, hlay, rfl, -⟩ := State.encodeChecks_ok hc
      obtain ⟨-, hmono⟩ := Layout.ofField_eq_some.mp hlay
      exact hmono.mpr rfl
    have hc' := (State.encodeChecks_mono _ depth src1 len1).trans (congrArg _ hc)
    have hl' := (launchRefusal_withSrc1 src1 s.platform mono).trans hl
    refine ⟨_, exec_encode_starts (busy.trans hb) hc' hl', rfl, rfl, rfl, rfl, fun J _ hJ => ?_⟩
    cases hJ
    exact ⟨_, rfl, JobRecord.sources_withSrc1 src1 mono, rfl, rfl, rfl, encodeStream_withSrc1 src1 mono⟩
  all_goals cases hi

/-- Settles O18. -/
theorem onlyClearAndResetClearDrop : Obligations.OnlyClearAndResetClearDrop := by
  refine ⟨fun s J => ?_, fun op s t h hs ht => ?_⟩
  · rcases s.engineStep_status J with ⟨-, hst⟩ | ⟨-, hst⟩ <;> rw [hst]
    exact Status.setDone_drop _
  · rcases execHostOp_block_cases h with ⟨i, hi⟩ | ⟨-, w, rfl⟩ | hq | ⟨hop, -⟩
    · exact .inr (exec_clears_drop hi hs ht)
    · exact absurd (hs.symm.trans ht) (by decide)
    · exact absurd (hs.symm.trans ((congrArg Status.drop hq.status).symm.trans ht)) (by decide)
    · exact .inl hop

/-- Settles O20. -/
theorem commandsKeepWhatTheyDoNotWrite : Obligations.CommandsKeepWhatTheyDoNotWrite := by
  intro i s t h
  obtain ⟨w, st, q, len, fmt, job, draws, rfl, hquant, hencode⟩ := exec_writes_only h
  exact ⟨⟨rfl, rfl, rfl, rfl, rfl, rfl, rfl, rfl, rfl⟩, ⟨rfl, rfl, rfl⟩, fun _ => rfl, hquant, hencode⟩

/-- Settles O21. -/
theorem rateHasNoEffect : Obligations.RateHasNoEffect := by
  refine ⟨fun i s t v h => ?_, fun i s v r h => ?_, fun s J v => s.engineStep_withRate J v⟩
  · exact (exec_withRate i s v).trans (congrArg (outcomeWithRate v) h)
  · exact (exec_withRate i s v).trans (congrArg (outcomeWithRate v) h)

/-! ### Tier 1 -/

/-- Settles O17. -/
theorem busyDropsEveryWord : Obligations.BusyDropsEveryWord :=
  ⟨fun w _ h => State.writeCmdReg_of_busy h w, fun i _ h => exec_of_busy h i⟩

/-- Settles O22. -/
theorem stepRunsTheDecodedCommand : Obligations.StepRunsTheDecodedCommand := by
  intro s w i rest hw hp
  refine ⟨fun hj => ?_, fun J hj => ?_, ?_⟩
  · rw [step_of_idle hj, State.hostStep_writeCmd hp, State.writeCmdReg_legal hw]
  · have hp' : s.countHostOp.program = writeCmd w :: rest := hp
    rw [step_of_job hj, State.hostStep_writeCmd hp', State.writeCmdReg_legal hw]
  · have word : BitVec.ofNat 32 (w.toNat % 2 ^ 32) = w := by
      rw [Nat.mod_eq_of_lt w.isLt, BitVec.ofNat_toNat, BitVec.setWidth_eq]
    have fetched : (s.withFetchWord 32 w.toNat).program = writeCmd w :: s.program := by
      simp only [State.withFetchWord, State.withCmdWrite, word]
    rw [step_of_idle rfl, State.hostStep_writeCmd fetched, State.writeCmdReg_legal hw]
    rfl

/-- Settles O24. -/
theorem registerReadsReturnTheirFields : Obligations.RegisterReadsReturnTheirFields := by
  refine ⟨by decide, fun s r t => ?_, fun s => ?_, fun s => ⟨rfl, rfl, rfl, rfl, rfl, rfl, rfl, rfl, rfl, rfl, rfl, rfl⟩⟩
  · refine ⟨cellsSet s.temps t (s.readReg r), ?_, cellsSet_lookup_same _ _ _, fun t' h => cellsSet_lookup_ne _ _ h⟩
    simp only [execHostOp, regAccess_offset, State.setTemp]
  · obtain ⟨busy, done, err, drop⟩ := Status.word_flags s.busy s.status
    obtain ⟨low, errcode, errinfo, high⟩ := Status.word_codes s.busy s.status
    exact ⟨rfl, rfl, s.readReg_ctrl, busy, done, err, drop, low, errcode, errinfo, high⟩

/-- Settles O25. -/
theorem registerWritesSetTheirRegister : Obligations.RegisterWritesSetTheirRegister := by
  intro s v
  refine ⟨fun r hr => ?_, ?_, fun r hr => ?_⟩
  · have hne : r ≠ .cmd := fun h => absurd (h ▸ hr) (by decide)
    exact ⟨_, execHostOp_wr s v hne, s.readReg_writeParam_full v hr, fun r' h => s.readReg_writeParam_ne v h,
      by simp, by simp, by simp⟩
  · exact ⟨_, execHostOp_wr s v (by decide), s.readReg_writeParam_ctrl v, fun r' h => s.readReg_writeParam_ne v h,
      rfl, rfl, rfl⟩
  · have hne : r ≠ .cmd := fun h => absurd (h ▸ hr) (by decide)
    rw [execHostOp_wr s v hne, s.writeParam_readOnly v hr]

/-- Settles O32. -/
theorem resetGivesEveryRegisterItsValue : Obligations.ResetGivesEveryRegisterItsValue := by
  have reset : ∀ r, r ≠ .id → State.reset.readReg r = 0 := fun r h => by rw [State.readReg_reset, if_neg h]
  refine ⟨⟨rfl, reset, rfl, rfl⟩, fun s => ⟨s.resetInput, rfl, rfl, fun r h => ?_, rfl, rfl, fun hj => ?_⟩⟩
  · rw [State.readReg_resetInput, reset r h]
  · simp only [State.resetInput, hj]

/-- Settles O34. -/
theorem irqIsEnabledDoneOrError : Obligations.IrqIsEnabledDoneOrError := by
  refine ⟨fun s => ?_, fun _ _ => rfl, rfl⟩
  obtain ⟨-, done, err, -⟩ := Status.word_flags s.busy s.status
  rw [State.readReg_ctrl_bit, State.readReg_status, done, err]
  simp only [State.irq, Bool.and_eq_true, Bool.or_eq_true]

/-- Settles O50. -/
theorem resetMeetsTheInvariant : Obligations.ResetMeetsTheInvariant := State.reset_inv

end Sys2Proof.Machine
end

section
/-! SUPPORT. Words in memory: a word read is the sum of its bytes, and a word stored is read back (R71). -/

namespace Sys2Proof.Machine

/-- Four bytes fit in a word, so their sum is the word they make. -/
theorem joinBytes_toNat (b0 b1 b2 b3 : Byte) : (joinBytes b0 b1 b2 b3).toNat =
    b0.toNat + b1.toNat * 2 ^ 8 + b2.toNat * 2 ^ 16 + b3.toNat * 2 ^ 24 := by
  have := b0.isLt
  have := b1.isLt
  have := b2.isLt
  have := b3.isLt
  rw [joinBytes, BitVec.toNat_ofNat]
  omega

theorem Memory.readWord_toNat (m : Memory) (a : Nat) : (m.readWord a).toNat =
    (m.read a).toNat + (m.read (a + 1)).toNat * 2 ^ 8 + (m.read (a + 2)).toNat * 2 ^ 16 + (m.read (a + 3)).toNat * 2 ^ 24 :=
  joinBytes_toNat _ _ _ _

/-- The offsets of a word's bytes. -/
theorem wordBytes_fst (v : Word) : (wordBytes v).map (·.1) = List.range 4 := rfl

/-- The byte of a word at offset `k` is its digit of 2^(8k). -/
theorem exists_mem_wordBytes (v : Word) {k : Nat} (hk : k < 4) :
    ∃ b : Byte, (k, b) ∈ wordBytes v ∧ b.toNat = v.toNat / 2 ^ (8 * k) % 2 ^ 8 := by
  refine ⟨v.extractLsb' (8 * k) 8, ?_, ?_⟩
  · interval_cases k <;> simp [wordBytes]
  · rw [BitVec.extractLsb'_toNat, Nat.shiftRight_eq_div_pow]

theorem mem_wordBytes_lt {v : Word} {w : Nat × Byte} (h : w ∈ wordBytes v) : w.1 < 4 :=
  List.mem_range.mp (wordBytes_fst v ▸ List.mem_map_of_mem h)

section writeWord
variable (m : Memory) (a : Nat) (v : Word)

/-- Byte `k` of a word written stands at its offset (R71). -/
theorem Memory.read_writeWord {k : Nat} (hk : k < 4) :
    ((m.writeAll a (wordBytes v)).read (a + k)).toNat = v.toNat / 2 ^ (8 * k) % 2 ^ 8 := by
  obtain ⟨b, hb, hv⟩ := exists_mem_wordBytes v hk
  rw [Memory.read_writeAll_on m a _ (wordBytes_fst v ▸ List.nodup_range) hb, hv]

/-- A word written leaves every byte outside it alone. -/
theorem Memory.read_writeWord_off {c : Nat} (h : c < a ∨ a + 4 ≤ c) :
    (m.writeAll a (wordBytes v)).read c = m.read c := by
  refine Memory.read_writeAll_off m a _ c fun w hw => ?_
  have := mem_wordBytes_lt hw
  omega

/-- The word read back is the word written (R71). -/
theorem Memory.readWord_writeWord : (m.writeAll a (wordBytes v)).readWord a = v := by
  have h₀ := m.read_writeWord a v (k := 0) (by decide)
  have h₁ := m.read_writeWord a v (k := 1) (by decide)
  have h₂ := m.read_writeWord a v (k := 2) (by decide)
  have h₃ := m.read_writeWord a v (k := 3) (by decide)
  rw [Nat.add_zero] at h₀
  have := v.isLt
  apply BitVec.eq_of_toNat_eq
  rw [Memory.readWord_toNat, h₀, h₁, h₂, h₃]
  omega

end writeWord

end Sys2Proof.Machine
end

section
/-! SUPPORT. A host store of bytes: what it leaves in memory, and how it is noted in a running job (R75, R110; log 6). -/

namespace Sys2Proof.Machine

/-- The job with the notes of a host store of bytes, each by its offset. -/
def Job.noteStores (J : Job) (a : Nat) (bs : List (Nat × Byte)) : Job :=
  bs.foldl (fun J w => J.noteStore (a + w.1)) J

@[simp] theorem Job.noteStores_nil (J : Job) (a : Nat) : J.noteStores a [] = J := rfl

@[simp] theorem Job.noteStores_cons (J : Job) (a : Nat) (w : Nat × Byte) (bs : List (Nat × Byte)) :
    J.noteStores a (w :: bs) = (J.noteStore (a + w.1)).noteStores a bs := rfl

/-- A host store of bytes writes them to memory and notes them in the job; it changes nothing else. -/
theorem State.storeBytes_eq (s : State) (a : Nat) (bs : List (Nat × Byte)) :
    s.storeBytes a bs = { s with mem := s.mem.writeAll a bs, job := s.job.map (·.noteStores a bs) } := by
  induction bs generalizing s with
  | nil => simp [State.storeBytes]
  | cons w bs ih =>
    calc s.storeBytes a (w :: bs) = (s.storeByte (a + w.1) w.2).storeBytes a bs := rfl
      _ = _ := by rw [ih]; simp [State.storeByte, Function.comp_def]

/-- Storing none of a job's bytes leaves the job as it is. -/
theorem Job.noteStores_miss {J : Job} {a : Nat} {bs : List (Nat × Byte)}
    (h : ∀ w ∈ bs, ¬(J.params.inDest (a + w.1) ∨ J.params.inSource (a + w.1))) : J.noteStores a bs = J := by
  induction bs with
  | nil => rfl
  | cons w bs ih =>
    rw [Job.noteStores_cons, Job.noteStore_miss (h w List.mem_cons_self)]
    exact ih fun w' hw' => h w' (List.mem_cons_of_mem _ hw')

/-- A job already raced stays as it is under any store. -/
theorem Job.noteStores_of_raced {J : Job} (h : J.prog.raced = true) (a : Nat) (bs : List (Nat × Byte)) :
    J.noteStores a bs = J := by
  have marked : { J with prog := { J.prog with raced := true } } = J := by rw [← h]
  induction bs with
  | nil => rfl
  | cons w bs ih =>
    have kept : J.noteStore (a + w.1) = J := by
      unfold Job.noteStore
      split_ifs
      · exact marked
      · rfl
    rw [Job.noteStores_cons, kept, ih]

/-- Storing one of a job's bytes marks the job as raced, whatever else is stored. -/
theorem Job.noteStores_hit {J : Job} {a : Nat} {bs : List (Nat × Byte)}
    (h : ∃ w ∈ bs, J.params.inDest (a + w.1) ∨ J.params.inSource (a + w.1)) :
    J.noteStores a bs = { J with prog := { J.prog with raced := true } } := by
  induction bs with
  | nil => simp at h
  | cons w bs ih =>
    rw [Job.noteStores_cons]
    by_cases hw : J.params.inDest (a + w.1) ∨ J.params.inSource (a + w.1)
    · rw [Job.noteStore_hit hw, Job.noteStores_of_raced rfl]
    · rw [Job.noteStore_miss hw]
      obtain ⟨w', hw', hit⟩ := h
      rcases List.mem_cons.mp hw' with rfl | hw'
      · exact absurd hit hw
      · exact ih ⟨w', hw', hit⟩

section plain
variable {s : State} (hp : s.platform.absent = []) (hs : s.platform.sharedSpace = false)
include hp hs

/-- On a plain platform MW8 is a store of its byte. -/
theorem execHostOp_mw8_plain (addr : Word) (b : Byte) :
    execHostOp (.mw8 addr b) s = .next (s.storeByte addr.toNat b) :=
  State.hostMem_plain _ _ hp hs addr.isLt

/-- On a plain platform MW32 inside the space writes its word and notes it in the job. -/
theorem execHostOp_mw32_plain {addr : Word} (v : Word) (ha : addr.toNat + 4 ≤ 2 ^ 32) :
    execHostOp (.mw32 addr v) s = .next { s with
      mem := s.mem.writeAll addr.toNat (wordBytes v), job := s.job.map (·.noteStores addr.toNat (wordBytes v)) } :=
  (State.hostMem_plain _ _ hp hs ha).trans (congrArg _ (s.storeBytes_eq _ _))

end plain

end Sys2Proof.Machine
end

section
/-! SUPPORT. The encoded stream by offset (R163, R165, R170), and what a job that is in accord with the memory at its
acceptance has read, will write and keeps in accord (R75, R167). -/

namespace Sys2Proof.Machine

/-- Byte `k` of the stream is byte `k mod bps` of the code of sample slot `k / bps`. -/
theorem encodeStream_getElem? {R : JobRecord} (m : Memory) {k : Nat} (hk : k < R.len) :
    (encodeStream R m)[k]? = some (codeByte R.depth
      (quantize (m.readWord (R.srcBase (k / R.bps % R.ch) + 4 * (k / R.bps / R.ch))) R.depth) (k % R.bps)) := by
  obtain ⟨hi, hc, hb, hsum⟩ := JobRecord.slot_bounds hk
  generalize k / R.bps / R.ch = i at *
  generalize k / R.bps % R.ch = c at *
  generalize k % R.bps = b at *
  have code : ∀ i c, (packBytes R.depth (quantize (m.readWord (R.srcBase c + 4 * i)) R.depth)).length = R.bps :=
    fun _ _ => packBytes_length _ _
  have frame := fun i => length_flatMap_range R.ch R.bps _ (code i)
  have inFrame : c * R.bps + b < R.ch * R.bps :=
    calc c * R.bps + b < (c + 1) * R.bps := by rw [Nat.succ_mul]; omega
      _ ≤ R.ch * R.bps := Nat.mul_le_mul_right _ hc
  have split : k = i * (R.ch * R.bps) + (c * R.bps + b) := by rw [← hsum]; ring
  rw [split, encodeStream, getElem?_flatMap_range _ _ _ frame hi inFrame, getElem?_flatMap_range _ _ _ (code i) hc hb,
    packBytes_getElem? _ _ hb]

/-- The account of a job in memory `m` against the memory `m₀` at its acceptance: what State.Tracks asks of a job without a
race. -/
structure Job.Accords (m₀ m : Memory) (J : Job) : Prop where
  sources : ∀ a, J.params.inSource a → m.read a = m₀.read a
  fetched : ∀ e ∈ J.prog.fetched, e.2 = m₀.read (J.params.srcBase e.1.1 + e.1.2)
  dest : ∀ k, k < J.params.len → m.read (J.params.dst.toNat + k) =
    if k ∈ J.prog.written then (encodeStream J.params m₀).getD k 0 else m₀.read (J.params.dst.toNat + k)

theorem State.tracks_iff {m₀ : Memory} {s : State} :
    s.Tracks m₀ ↔ ∀ J, s.job = some J → J.prog.raced = false → J.Accords m₀ s.mem :=
  forall₃_congr fun _ _ _ => ⟨fun ⟨hs, hf, hd⟩ => ⟨hs, hf, hd⟩, fun h => ⟨h.sources, h.fetched, h.dest⟩⟩

/-- A job that has made no access is in accord with the memory it starts in. -/
theorem Job.fresh_accords (R : JobRecord) (draw : Nat) (m : Memory) : (Job.fresh R draw).Accords m m :=
  ⟨fun _ _ => rfl, by simp [Job.fresh], by simp [Job.fresh]⟩

section accords
variable {m₀ m : Memory} {J : Job}

/-- Memory outside a job's regions is no matter of its account. -/
theorem Job.Accords.of_read_eq (h : J.Accords m₀ m) {m' : Memory}
    (hm : ∀ a, J.params.inDest a ∨ J.params.inSource a → m'.read a = m.read a) : J.Accords m₀ m' where
  sources a ha := (hm a (.inr ha)).trans (h.sources a ha)
  fetched := h.fetched
  dest k hk := (hm _ (.inl ⟨by omega, by omega⟩)).trans (h.dest k hk)

/-- The bookkeeping of turns and races is no matter of a job's account. -/
theorem Job.Accords.of_sameWork (h : J.Accords m₀ m) {J' : Job} (hw : J.SameWork J') : J'.Accords m₀ m where
  sources := by simpa only [hw.params] using h.sources
  fetched := by simpa only [hw.params, hw.fetched] using h.fetched
  dest := by simpa only [hw.params, hw.written] using h.dest

/-- A sample that has been read is the sample at acceptance. -/
theorem Job.Accords.sample (h : J.Accords m₀ m) {c i : Nat} {f : Word} (hf : J.sample c i = some f) :
    f = m₀.readWord (J.params.srcBase c + 4 * i) := by
  obtain ⟨b0, b1, b2, b3, h₀, h₁, h₂, h₃, rfl⟩ := Job.sample_eq_some hf
  rw [show b0 = _ from h.fetched _ h₀, show b1 = _ from h.fetched _ h₁, show b2 = _ from h.fetched _ h₂,
    show b3 = _ from h.fetched _ h₃]
  rfl

/-- A byte the engine has ready is that byte of the stream encoded from the memory at acceptance. -/
theorem Job.Accords.streamByte (h : J.Accords m₀ m) {k : Nat} {b : Byte} (hk : k < J.params.len)
    (hb : J.streamByte k = some b) : (encodeStream J.params m₀).getD k 0 = b := by
  rw [List.getD_eq_getElem?_getD, encodeStream_getElem? m₀ hk]
  simp only [Job.streamByte] at hb
  split at hb
  · rename_i f hf
    rw [← h.sample hf]
    exact Option.some.inj hb
  · cases hb

/-- Reading more source bytes keeps the account: the sources stand as they were. -/
theorem Job.Accords.fetch (h : J.Accords m₀ m) (take : Nat → Nat → Bool) : (J.fetch take m).Accords m₀ m where
  sources := h.sources
  fetched e he := by
    rcases Job.mem_fetch he with he | ⟨hmem, -, hread⟩
    · exact h.fetched e he
    · obtain ⟨hc, hj⟩ := JobRecord.mem_sourceBytes.mp hmem
      exact hread.trans (h.sources _ (JobRecord.inSource_of_sourceByte hc hj))
  dest := h.dest

/-- What the engine has ready lies in the destination. -/
theorem Job.inDest_of_readyBytes {put : Nat → Bool} {w : Nat × Byte} (hw : w ∈ J.readyBytes put) :
    J.params.inDest (J.params.dst.toNat + w.1) := by
  obtain ⟨hlt, -⟩ := Job.mem_readyBytes.mp hw
  exact ⟨by omega, by omega⟩

/-- A destination byte after the ready bytes are written: final if it was one of them, else as before. -/
theorem Job.Accords.read_writeReady (h : J.Accords m₀ m) (put : Nat → Bool) (k : Nat) :
    (m.writeAll J.params.dst.toNat (J.readyBytes put)).read (J.params.dst.toNat + k) =
      if k ∈ (J.readyBytes put).map (·.1) then (encodeStream J.params m₀).getD k 0
      else m.read (J.params.dst.toNat + k) := by
  split_ifs with hk
  · obtain ⟨⟨k, b⟩, hw, rfl⟩ := List.mem_map.mp hk
    obtain ⟨hlt, -, -, hb⟩ := Job.mem_readyBytes.mp hw
    rw [Memory.read_writeAll_on _ _ _ (J.readyBytes_nodup put) hw, h.streamByte hlt hb]
  · refine Memory.read_writeAll_off _ _ _ _ fun w hw heq => hk ?_
    exact List.mem_map.mpr ⟨w, hw, by omega⟩

theorem Job.afterAccesses_params (take : Nat → Nat → Bool) (put : Nat → Bool) :
    (J.afterAccesses m take put).params = J.params := rfl

/-- The bytes written after an engine step are those it had ready and those written before. -/
theorem Job.mem_afterAccesses_written {take : Nat → Nat → Bool} {put : Nat → Bool} {k : Nat} :
    k ∈ (J.afterAccesses m take put).prog.written ↔
      k ∈ ((J.fetch take m).readyBytes put).map (·.1) ∨ k ∈ J.prog.written :=
  List.mem_append.trans or_comm

/-- The accesses of an engine step keep the account: a legal job's writes miss its sources, and what it writes is final. -/
theorem Job.Accords.afterAccesses (h : J.Accords m₀ m) (hR : J.params.Legal) (take : Nat → Nat → Bool)
    (put : Nat → Bool) : (J.afterAccesses m take put).Accords m₀
      (m.writeAll J.params.dst.toNat ((J.fetch take m).readyBytes put)) where
  sources a ha := by
    refine (Memory.read_writeAll_off _ _ _ _ fun w hw heq => ?_).trans (h.sources a ha)
    exact hR.not_inSource (Job.inDest_of_readyBytes (J := J.fetch take m) hw) (heq ▸ ha)
  fetched := (h.fetch take).fetched
  dest k hk := by
    have ready := (h.fetch take).read_writeReady put k
    have before := h.dest k hk
    simp only [Job.fetch_params] at ready
    simp only [Job.afterAccesses_params] at before ⊢
    rw [ready, before]
    simp only [Job.mem_afterAccesses_written, ite_or]

end accords

end Sys2Proof.Machine
end

section
/-! SUPPORT. What each agent's step does to the account of a running job (R75, R167). -/

namespace Sys2Proof.Machine

section tracks
variable {m₀ : Memory} {s t : State}

/-- Without a job there is nothing to track. -/
theorem State.Tracks.of_no_job (h : s.job = none) : s.Tracks m₀ := fun J hJ => by rw [h] at hJ; cases hJ

/-- A change to neither the job nor memory keeps the account. -/
theorem State.Tracks.of_same (h : s.Tracks m₀) (hj : t.job = s.job) (hm : t.mem = s.mem) : t.Tracks m₀ := by
  simpa only [State.Tracks, hj, hm] using h

/-- Counting a host operation of the burst keeps the account. -/
theorem State.Tracks.countHostOp (h : s.Tracks m₀) : s.countHostOp.Tracks m₀ := by
  refine State.tracks_iff.mpr fun J' hJ' hr => ?_
  obtain ⟨J, hJ, rfl⟩ := Option.map_eq_some_iff.mp (s.countHostOp_job ▸ hJ')
  exact (State.tracks_iff.mp h J hJ hr).of_sameWork ⟨rfl, rfl, rfl⟩

/-- A host store keeps the account: it misses the job's regions, or the job is noted as raced. -/
theorem State.Tracks.storeByte (h : s.Tracks m₀) (a : Nat) (b : Byte) : (s.storeByte a b).Tracks m₀ := by
  refine State.tracks_iff.mpr fun J' hJ' hr => ?_
  obtain ⟨J, hJ, rfl⟩ := Option.map_eq_some_iff.mp (s.storeByte_job a b ▸ hJ')
  by_cases hit : J.params.inDest a ∨ J.params.inSource a
  · rw [Job.noteStore_hit hit] at hr
    cases hr
  · rw [Job.noteStore_miss hit] at hr ⊢
    refine (State.tracks_iff.mp h J hJ hr).of_read_eq fun c hc => ?_
    exact Memory.read_write_ne _ _ fun heq => hit (heq ▸ hc)

theorem State.Tracks.storeBytes (h : s.Tracks m₀) (a : Nat) (bs : List (Nat × Byte)) :
    (s.storeBytes a bs).Tracks m₀ := by
  induction bs generalizing s with
  | nil => exact h
  | cons w bs ih => exact ih (h.storeByte (a + w.1) w.2)

/-- An engine step on a legal job keeps the account; the one that completes leaves no job. -/
theorem State.Tracks.engineStep (h : s.Tracks m₀) {J : Job} (hJ : s.job = some J) (hR : J.params.Legal) :
    (s.engineStep J).Tracks m₀ := by
  unfold State.engineStep
  rcases s.engineTurn_cases J J.lastStep (Config.readNow J.prog.draw J.prog.steps)
    (Config.writeNow J.prog.draw J.prog.steps) with ⟨-, heq⟩ | ⟨-, heq⟩ <;> rw [heq]
  · exact .of_no_job rfl
  · refine State.tracks_iff.mpr fun J' hJ' hr => ?_
    cases hJ'
    exact (State.tracks_iff.mp h J hJ hr).afterAccesses hR _ _

/-- A command leaves memory alone, and the job too unless it is an ENCODE that starts one on an idle block (R166). -/
theorem exec_job_cases {i : Instr} (h : exec i s = .next t) :
    t.mem = s.mem ∧ (t.job = s.job ∨ (s.busy = false ∧ ∃ R draw, t.job = some (Job.fresh R draw))) := by
  rcases exec_next_cases h with ⟨-, rfl⟩ | ⟨hb, ⟨dp, nc, -, rfl⟩ | ⟨dp, nc, -, rfl⟩ | ⟨dp, nc, -, rfl⟩ |
    ⟨dp, nc, d, -, -, rfl⟩ | ⟨dp, nc, e, -, -, rfl⟩ | ⟨dp, nc, R, -, -, -, rfl⟩⟩
  case inr.inr.inr.inr.inr.inr => exact ⟨rfl, .inr ⟨hb, R, _, rfl⟩⟩
  all_goals exact ⟨rfl, .inl rfl⟩

/-- A command keeps the account of a running job, and a job that starts does so in accord with memory as it is. -/
theorem exec_tracks {i : Instr} (h : exec i s = .next t) (hs : s.Tracks m₀) (hidle : s.busy = false → s.mem = m₀) :
    t.Tracks m₀ := by
  obtain ⟨hm, hj | ⟨hb, R, draw, hj⟩⟩ := exec_job_cases h
  · exact hs.of_same hj hm
  · refine State.tracks_iff.mpr fun J hJ _ => ?_
    rw [hj] at hJ
    cases hJ
    rw [hm, hidle hb]
    exact Job.fresh_accords R draw m₀

theorem State.writeReg_tracks {r : Reg} {v : Word} (h : s.writeReg r v = .next t) (hs : s.Tracks m₀)
    (hidle : s.busy = false → s.mem = m₀) : t.Tracks m₀ := by
  rcases State.writeReg_next_cases h with ⟨-, i, -, hi⟩ | ⟨-, -, rfl⟩ | ⟨-, -, rfl⟩ | ⟨-, rfl⟩
  · exact exec_tracks hi hs hidle
  · exact hs.of_same rfl rfl
  · exact hs.of_same rfl rfl
  · exact hs.of_same (s.writeParam_job r v) (s.writeParam_mem r v)

/-- A host operation keeps the account of a running job, and a job that it starts is in accord with memory as it is. -/
theorem execHostOp_tracks {op : HostOp} (h : execHostOp op s = .next t) (hs : s.Tracks m₀)
    (hidle : s.busy = false → s.mem = m₀) : t.Tracks m₀ := by
  rcases execHostOp_next_cases h with ⟨r, v, h⟩ | ⟨n, v, rfl⟩ | rfl | rfl | ⟨a, b, -, rfl⟩ | ⟨a, v, -, rfl⟩ |
    ⟨a, n, rfl⟩ | ⟨-, rfl⟩
  · exact State.writeReg_tracks h hs hidle
  · exact hs.of_same rfl rfl
  · exact hs
  · exact hs.of_same rfl rfl
  · exact hs.storeByte a b
  · exact hs.storeBytes a _
  · obtain ⟨v, k, hload⟩ := s.loadByte_cases a n
    rw [hload]
    exact hs.of_same rfl rfl
  · exact .of_no_job rfl

/-- A step of either agent keeps the account of a running job, and a job accepted in it starts with the account against
memory as it is. -/
theorem step_tracks (hinv : s.Inv) (h : step s = .next t) (hs : s.Tracks m₀) (hidle : s.busy = false → s.mem = m₀) :
    t.Tracks m₀ := by
  obtain ⟨-, -, -, -, hlegal⟩ := hinv
  rcases step_next_cases h with ⟨J, hJ, -, rfl⟩ | ⟨op, rest, -, -, h⟩ | ⟨op, rest, J, -, -, h⟩ | ⟨-, -, rfl⟩
  · obtain ⟨hR, -⟩ := hlegal J hJ
    exact hs.engineStep hJ hR
  · exact execHostOp_tracks h (hs.of_same rfl rfl) hidle
  · exact execHostOp_tracks h (hs.countHostOp.of_same rfl rfl) fun hb => hidle (s.countHostOp_busy ▸ hb)
  · exact hs

/-- A load from a job's destination without a race names the byte in memory, zero-extended (R75; log 12). -/
theorem execHostOp_mr8_unraced {J : Job} (hJ : s.job = some J) (hr : J.prog.raced = false) {addr : Word} {n : Nat}
    (h : execHostOp (.mr8 addr n) s = .next t) : t.temps.lookup n = some ((s.mem.read addr.toNat).setWidth 32) := by
  have unraced : s.loadsRaced addr.toNat = false := by simp only [State.loadsRaced, hJ, hr, Bool.false_and]
  obtain ⟨-, h | h⟩ := State.hostMem_next h
  · cases h
  · obtain rfl := Host.Outcome.next.inj h
    rw [State.loadByte, unraced]
    exact cellsSet_lookup_same _ _ _

end tracks

end Sys2Proof.Machine
end

section
/-! SUPPORT. The statements about memory and the host's accesses during a job, settled (20_memory.md). -/

namespace Sys2Proof.Machine

/-! ### Tier 3 -/

/-- Settles O44: the account of a running job is kept, and on an idle block there is none until one is accepted. -/
theorem stepKeepsJobTracking : Obligations.StepKeepsJobTracking := by
  intro m₀ s s' hinv h
  refine ⟨fun hb hs => step_tracks hinv h hs fun hidle => ?_, fun hb => step_tracks hinv h ?_ fun _ => rfl⟩
  · rw [hb] at hidle
    cases hidle
  · exact .of_no_job (Option.isNone_iff_eq_none.mp (Option.isSome_eq_false_iff.mp hb))

/-! ### Tier 2 -/

/-- Settles O28. -/
theorem hostWordStoreIsLittleEndian : Obligations.HostWordStoreIsLittleEndian := by
  intro s addr v hp hs hj ha
  refine ⟨s.mem.writeAll addr.toNat (wordBytes v), ?_, fun k hk => s.mem.read_writeWord addr.toNat v hk,
    fun a h => s.mem.read_writeWord_off addr.toNat v h, s.mem.readWord_writeWord addr.toNat v⟩
  rw [execHostOp_mw32_plain hp hs v ha, hj, Option.map_none, ← hj]

/-- Settles O46. -/
theorem earlyLoadSeesOldOrFinalByte : Obligations.EarlyLoadSeesOldOrFinalByte := by
  intro m₀ s u J k t addr hs hJ hr hk haddr h
  rw [execHostOp_mr8_unraced hJ hr h, haddr, (State.tracks_iff.mp hs J hJ hr).dest k hk]
  split_ifs
  · exact .inr rfl
  · exact .inl rfl

/-- Settles O48. -/
theorem hostStoreRacesOnlyInTheRegions : Obligations.HostStoreRacesOnlyInTheRegions := by
  intro s J addr hp hs hJ
  refine ⟨fun b => ?_, fun v ha => ?_⟩
  · refine ⟨s.mem.write addr.toNat b, J.noteStore addr.toNat, ?_, Memory.read_write_same _ _ _,
      fun a h => Memory.read_write_ne _ _ h, Job.noteStore_hit, Job.noteStore_miss⟩
    rw [execHostOp_mw8_plain hp hs, State.storeByte, hJ, Option.map_some]
  · refine ⟨s.mem.writeAll addr.toNat (wordBytes v), J.noteStores addr.toNat (wordBytes v), ?_,
      fun k hk => s.mem.read_writeWord addr.toNat v hk, fun a h => s.mem.read_writeWord_off addr.toNat v h, ?_, ?_⟩
    · rw [execHostOp_mw32_plain hp hs v ha, hJ, Option.map_some]
    · rintro ⟨k, hk, hit⟩
      obtain ⟨b, hb, -⟩ := exists_mem_wordBytes v hk
      exact Job.noteStores_hit ⟨_, hb, hit⟩
    · exact fun miss => Job.noteStores_miss fun w hw => miss w.1 (mem_wordBytes_lt hw)

/-! ### Tier 1 -/

/-- Settles O29. -/
theorem wordReadIsLittleEndianSum : Obligations.WordReadIsLittleEndianSum := fun m a => m.readWord_toNat a

end Sys2Proof.Machine
end

section
/-! SUPPORT. The fields of a command word (R100): a word joined from fields has those fields and no reserved bit, a word
without reserved bits is joined from its fields, and a field read as a mask. -/

namespace Sys2Proof

section fields
variable (op : BitVec 4) (depth nch : Byte)

/-- No field of a joined word overflows its place, so the word is the plain sum of its fields. -/
theorem toNat_joinFields :
    (joinFields op depth nch).toNat = op.toNat + depth.toNat * 2 ^ 8 + nch.toNat * 2 ^ 16 := by
  have := op.isLt
  have := depth.isLt
  have := nch.isLt
  simp only [joinFields, BitVec.toNat_ofNat]
  omega

@[simp] theorem opField_joinFields : opField (joinFields op depth nch) = op := by
  apply Machine.extractLsb'_eq_of_digits
  rw [toNat_joinFields]
  omega

@[simp] theorem rsv0Field_joinFields : rsv0Field (joinFields op depth nch) = 0 := by
  apply Machine.extractLsb'_eq_of_digits
  rw [toNat_joinFields, show (0 : BitVec 4).toNat = 0 from rfl]
  omega

@[simp] theorem depthField_joinFields : depthField (joinFields op depth nch) = depth := by
  apply Machine.extractLsb'_eq_of_digits
  rw [toNat_joinFields]
  omega

@[simp] theorem nchField_joinFields : nchField (joinFields op depth nch) = nch := by
  apply Machine.extractLsb'_eq_of_digits
  rw [toNat_joinFields]
  omega

@[simp] theorem rsv1Field_joinFields : rsv1Field (joinFields op depth nch) = 0 := (Laws.TableRow.of_fields op depth nch).2

end fields

/-- The five fields cover all 32 bits, so a word with no reserved bit set is lost in none of them. -/
theorem joinFields_of_reserved_zero {w : Word} (h0 : rsv0Field w = 0) (h1 : rsv1Field w = 0) :
    joinFields (opField w) (depthField w) (nchField w) = w := by
  have low : w.toNat / 2 ^ 4 % 2 ^ 4 = 0 := by
    simpa [rsv0Field, Nat.shiftRight_eq_div_pow] using congrArg BitVec.toNat h0
  have high : w.toNat / 2 ^ 24 % 2 ^ 8 = 0 := by
    simpa [rsv1Field, Nat.shiftRight_eq_div_pow] using congrArg BitVec.toNat h1
  have := w.isLt
  apply BitVec.eq_of_toNat_eq
  rw [toNat_joinFields]
  simp only [opField, depthField, nchField, BitVec.extractLsb'_toNat, Nat.shiftRight_eq_div_pow]
  omega

/-- A word under the mask of a field is that field at its place. -/
theorem toNat_and_fieldMask (w : Word) {start len : Nat} (h : start + len ≤ 32) :
    (w &&& (BitVec.allOnes len).setWidth 32 <<< start).toNat = (w.extractLsb' start len).toNat * 2 ^ start := by
  have shifted : w &&& (BitVec.allOnes len).setWidth 32 <<< start = (w.extractLsb' start len).setWidth 32 <<< start := by
    ext k hk
    by_cases hs : k < start
    · simp [hs]
    · simp [hs, Nat.add_sub_cancel' (Nat.not_lt.mp hs), BitVec.getLsbD_eq_getElem hk, Bool.and_comm]
  have place : (w.extractLsb' start len).toNat * 2 ^ start < 2 ^ 32 := calc
    (w.extractLsb' start len).toNat * 2 ^ start < 2 ^ len * 2 ^ start :=
      Nat.mul_lt_mul_of_pos_right (BitVec.isLt _) (Nat.two_pow_pos start)
    _ = 2 ^ (start + len) := by rw [Nat.add_comm, Nat.pow_add]
    _ ≤ 2 ^ 32 := Nat.pow_le_pow_right (by decide) h
  have field : (w.extractLsb' start len).toNat < 2 ^ 32 :=
    (BitVec.isLt _).trans_le (Nat.pow_le_pow_right (by decide) (by omega))
  rw [shifted, BitVec.toNat_shiftLeft, BitVec.toNat_setWidth, Nat.shiftLeft_eq, Nat.mod_eq_of_lt field,
    Nat.mod_eq_of_lt place]

theorem and_fieldMask_ne_zero (w : Word) {start len : Nat} (h : start + len ≤ 32) :
    w &&& (BitVec.allOnes len).setWidth 32 <<< start ≠ 0 ↔ w.extractLsb' start len ≠ 0 := by
  simp [← BitVec.toNat_inj, -BitVec.toNat_and, toNat_and_fieldMask w h]

end Sys2Proof
end

section
/-! SUPPORT. The decoder against the encoder (R100, R103, R104): each said once, by the fields of the word. -/

namespace Sys2Proof

/-- The DEPTH field an instruction carries. -/
def Instr.depth : Instr → Byte
  | .nop depth _ | .encode depth _ | .quant depth _ | .clear depth _ => depth

/-- The NCH field an instruction carries. -/
def Instr.nch : Instr → Byte
  | .nop _ nch | .encode _ nch | .quant _ nch | .clear _ nch => nch

/-- Every command's word has the one format of R100. -/
theorem encodeInstr_eq (i : Instr) : encodeInstr i = joinFields (opOf i) i.depth i.nch := by cases i <;> rfl

theorem opOf_lt (i : Instr) : (opOf i).toNat < 4 := by cases i <;> simp [opOf]

/-- Each OP below 4 is a command's, whatever its fields. -/
theorem exists_instr {op : BitVec 4} (h : op.toNat < 4) (depth nch : Byte) :
    ∃ i : Instr, op = opOf i ∧ depth = i.depth ∧ nch = i.nch := by
  have ops : ∀ op : BitVec 4, op.toNat < 4 → op = 0 ∨ op = 1 ∨ op = 2 ∨ op = 3 := by decide
  rcases ops op h with rfl | rfl | rfl | rfl
  · exact ⟨.nop depth nch, rfl, rfl, rfl⟩
  · exact ⟨.encode depth nch, rfl, rfl, rfl⟩
  · exact ⟨.quant depth nch, rfl, rfl, rfl⟩
  · exact ⟨.clear depth nch, rfl, rfl, rfl⟩

theorem decode_encodeInstr (i : Instr) : decode (encodeInstr i) = .ok i := by
  rw [encodeInstr_eq]
  cases i <;> simp [decode, opOf, Instr.depth, Instr.nch]

/-- A word with no reserved bit set is the word of the instruction whose OP, DEPTH and NCH it has. -/
theorem encodeInstr_of_fields {w : Word} {i : Instr} (rsv0 : rsv0Field w = 0) (rsv1 : rsv1Field w = 0)
    (op : opField w = opOf i) (depth : depthField w = i.depth) (nch : nchField w = i.nch) : encodeInstr i = w := by
  rw [encodeInstr_eq, ← op, ← depth, ← nch, joinFields_of_reserved_zero rsv0 rsv1]

/-- The legal words and their instructions: no reserved bit is set, and OP, DEPTH and NCH are the instruction's. -/
theorem decode_eq_ok {w : Word} {i : Instr} : decode w = .ok i ↔
    rsv0Field w = 0 ∧ rsv1Field w = 0 ∧ opField w = opOf i ∧ depthField w = i.depth ∧ nchField w = i.nch := by
  constructor
  · intro h
    unfold decode at h
    split_ifs at h with rsv0 rsv1
    rw [not_not] at rsv0 rsv1
    split at h <;> cases h
    all_goals exact ⟨rsv0, rsv1, BitVec.eq_of_toNat_eq ‹_›, rfl, rfl⟩
  · rintro ⟨rsv0, rsv1, op, depth, nch⟩
    rw [← encodeInstr_of_fields rsv0 rsv1 op depth nch, decode_encodeInstr]

theorem encodeInstr_of_decode {w : Word} {i : Instr} (h : decode w = .ok i) : encodeInstr i = w := by
  obtain ⟨rsv0, rsv1, op, depth, nch⟩ := decode_eq_ok.mp h
  exact encodeInstr_of_fields rsv0 rsv1 op depth nch

/-- The illegal words: a reserved bit is set, or OP is reserved. -/
theorem decode_eq_error {w : Word} :
    (∃ e, decode w = .error e) ↔ rsv0Field w ≠ 0 ∨ rsv1Field w ≠ 0 ∨ 4 ≤ (opField w).toNat := by
  constructor
  · rintro ⟨e, he⟩
    by_contra! ⟨rsv0, rsv1, hop⟩
    obtain ⟨i, hi⟩ := exists_instr hop (depthField w) (nchField w)
    rw [decode_eq_ok.mpr ⟨rsv0, rsv1, hi⟩] at he
    cases he
  · intro h
    cases hd : decode w with
    | error e => exact ⟨e, rfl⟩
    | ok i =>
      obtain ⟨rsv0, rsv1, op, -⟩ := decode_eq_ok.mp hd
      exact absurd h (by simp [rsv0, rsv1, op, opOf_lt])

end Sys2Proof
end

section
/-! SUPPORT. The assembler and the disassembler (R111, R113). -/

namespace Sys2Proof

/-! ### Assembling -/

theorem assemble_of_wellFormed {line : Asm} (h : line.wellFormed = true) : assemble line = some (expand line) := if_pos h

theorem assemble_eq_none {line : Asm} (h : line.wellFormed = false) : assemble line = none := by simp [assemble, h]

theorem expand_of_assemble {line : Asm} {op : HostOp} (h : assemble line = some op) : expand line = op := by
  unfold assemble at h
  split_ifs at h
  exact Option.some.inj h

/-- Operands in range reach their fields whole. -/
theorem joinFields_ofNat (op : BitVec 4) {d c : Nat} (hd : d ≤ 255) (hc : c ≤ 255) :
    joinFields op (BitVec.ofNat 8 d) (BitVec.ofNat 8 c) = BitVec.ofNat 32 (c * 2 ^ 16 + d * 2 ^ 8 + op.toNat) := by
  have depth : (BitVec.ofNat 8 d).toNat = d := by rw [BitVec.toNat_ofNat]; omega
  have nch : (BitVec.ofNat 8 c).toNat = c := by rw [BitVec.toNat_ofNat]; omega
  rw [joinFields, depth, nch]
  congr 1
  omega

theorem Reg.offset_injective {r r' : Reg} (h : r.offset = r'.offset) : r = r' := by
  have access := Machine.regAccess_offset r
  rw [h, Machine.regAccess_offset] at access
  exact (Option.some.inj access).symm

theorem writeCmd_injective {w w' : Word} (h : writeCmd w = writeCmd w') : w = w' := by
  injection h

/-- A line that writes CMD is WR CMD or a mnemonic, and a mnemonic writes the word of an instruction. -/
theorem expand_eq_writeCmd {line : Asm} {w : Word} (h : expand line = writeCmd w) :
    (∃ imm, line = .wr .cmd imm) ∨ ∃ i, encodeInstr i = w := by
  cases line with
  | wr r imm =>
    injection h with _ hoff _
    exact .inl ⟨imm, by rw [Reg.offset_injective hoff]⟩
  | rd | poll | mw8 | mw32 | mr8 | wait => cases h
  | nop | encode | quant | clear | enc8m | enc8s | enc16m | enc16s | q8 | q16 => exact .inr ⟨_, writeCmd_injective h⟩

/-! ### Disassembling -/

/-- The line that an instruction is listed as: the fields its operation ignores are not in it (R113). -/
def Instr.line : Instr → Asm
  | .nop _ _ => .nop
  | .encode depth nch => .encode depth.toNat nch.toNat
  | .quant depth _ => .quant depth.toNat
  | .clear _ _ => .clear

/-- The instruction with 0 in the fields its operation ignores (R106). -/
def Instr.clearUnread : Instr → Instr
  | .nop _ _ => .nop 0 0
  | .encode depth nch => .encode depth nch
  | .quant depth _ => .quant depth 0
  | .clear _ _ => .clear 0 0

theorem Instr.line_clearUnread (i : Instr) : i.clearUnread.line = i.line := by cases i <;> rfl

theorem disassemble_of_error {w : Word} {e : IllegalWord} (h : decode w = .error e) : disassemble w = .word w := by
  simp only [disassemble, h]

theorem disassemble_of_ok {w : Word} {i : Instr} (h : decode w = .ok i) : disassemble w = .cmd i.line := by
  cases i <;> simp only [disassemble, h, Instr.line]

theorem disassemble_encodeInstr (i : Instr) : disassemble (encodeInstr i) = .cmd i.line :=
  disassemble_of_ok (decode_encodeInstr i)

theorem exists_line_of_disassemble {w : Word} {line : Asm} (h : disassemble w = .cmd line) :
    ∃ i : Instr, i.line = line := by
  cases hd : decode w with
  | error e =>
    rw [disassemble_of_error hd] at h
    cases h
  | ok i =>
    rw [disassemble_of_ok hd] at h
    exact ⟨i, Listing.cmd.inj h⟩

/-- Assembling a listed line gives the instruction back but for the fields its operation ignores. -/
theorem assemble_line (i : Instr) : assemble i.line = some (writeCmd (encodeInstr i.clearUnread)) := by
  have bound : ∀ b : Byte, b.toNat ≤ 255 := fun b => Nat.le_of_lt_succ b.isLt
  cases i with
  | nop | clear => rfl
  | encode depth nch => simp [Instr.line, Instr.clearUnread, assemble, Asm.wellFormed, expand, bound]
  | quant depth nch => simp [Instr.line, Instr.clearUnread, assemble, Asm.wellFormed, expand, bound]

end Sys2Proof
end

section
/-! SUPPORT. A host load and a POLL on an idle block (R110; log 12, 21). -/

namespace Sys2Proof.Machine

/-- On a plain platform MR8 is a load of its byte. -/
theorem execHostOp_mr8_plain {s : State} (hp : s.platform.absent = []) (hs : s.platform.sharedSpace = false) (addr : Word)
    (t : Nat) : execHostOp (.mr8 addr t) s = .next (s.loadByte addr.toNat t) :=
  State.hostMem_plain _ _ hp hs addr.isLt

/-- With no job a load names the byte in memory, zero-extended. -/
theorem State.loadByte_of_idle {s : State} (h : s.job = none) (a t : Nat) :
    s.loadByte a t = s.setTemp t ((s.mem.read a).setWidth 32) := by
  simp [State.loadByte, State.loadsRaced, h]

/-- A POLL of a register reads it once: it is taken when the masked value matches, and stays the next operation when not. -/
theorem execHostOp_poll (s : State) (r : Reg) (mask val : Word) : execHostOp (.poll .word r.offset mask val) s =
    if s.readReg r &&& mask = val then .next s
    else .next { s with program := .poll .word r.offset mask val :: s.program } := by
  simp only [execHostOp, regAccess_offset]

/-- No register reads the host's program. -/
theorem State.readReg_withProgram (s : State) (p : List HostOp) (r : Reg) :
    { s with program := p }.readReg r = s.readReg r := by
  cases r <;> rfl

end Sys2Proof.Machine
end

section
/-! SUPPORT. The statements about the command words, the assembler and the host's accesses to an idle block, settled
(30_encoding.md). -/

namespace Sys2Proof.Machine

/-! ### Tier 3 -/

/-- Settles O1. -/
theorem decodeAndEncodeAgree : Obligations.DecodeAndEncodeAgree :=
  ⟨decode_encodeInstr, fun _ _ h => encodeInstr_of_decode h⟩

/-! ### Tier 2 -/

/-- Settles O2: each mask of the statement is the mask of a field. -/
theorem illegalWordsAreReservedOnes : Obligations.IllegalWordsAreReservedOnes := by
  intro w
  have rsv0 : w &&& 0xF0 ≠ 0 ↔ rsv0Field w ≠ 0 := and_fieldMask_ne_zero w (start := 4) (len := 4) (by decide)
  have rsv1 : w &&& 0xFF000000 ≠ 0 ↔ rsv1Field w ≠ 0 := and_fieldMask_ne_zero w (start := 24) (len := 8) (by decide)
  have op : (w &&& 0xF).toNat = (opField w).toNat * 2 ^ 0 := toNat_and_fieldMask w (start := 0) (len := 4) (by decide)
  rw [rsv0, rsv1, op, Nat.pow_zero, Nat.mul_one, decode_eq_error]

/-- Settles O4. -/
theorem assemblerWritesCommandWords : Obligations.AssemblerWritesCommandWords := by
  refine ⟨rfl, rfl, fun d c hd hc => ?_, fun d hd => ?_, fun d c h => ?_, fun d h => ?_, fun line w e h hw => ?_⟩
  · rw [assemble_of_wellFormed (by simp [Asm.wellFormed, hd, hc])]
    exact congrArg (some ∘ writeCmd) (joinFields_ofNat 1 hd hc)
  · rw [assemble_of_wellFormed (by simp [Asm.wellFormed, hd])]
    exact congrArg (some ∘ writeCmd) ((joinFields_ofNat 2 hd (Nat.zero_le 255)).trans (by simp))
  · exact assemble_eq_none (by simp only [Asm.wellFormed, Bool.and_eq_false_iff, decide_eq_false_iff_not]; omega)
  · exact assemble_eq_none (by simp [Asm.wellFormed, h])
  · rcases expand_eq_writeCmd (expand_of_assemble h) with wr | ⟨i, rfl⟩
    · exact wr
    · rw [decode_encodeInstr] at hw
      cases hw

/-- Settles O6: a listed line assembles to the listed instruction with its unread fields 0, which is listed alike. -/
theorem disassemblyIgnoresUnreadFields : Obligations.DisassemblyIgnoresUnreadFields := by
  refine ⟨fun w e h => disassemble_of_error h, fun d c => disassemble_encodeInstr (.nop d c),
    fun d c => disassemble_encodeInstr (.encode d c), fun d c => disassemble_encodeInstr (.quant d c),
    fun d c => disassemble_encodeInstr (.clear d c), fun w line h => ?_⟩
  obtain ⟨i, rfl⟩ := exists_line_of_disassemble h
  exact ⟨_, assemble_line i, by rw [disassemble_encodeInstr, i.line_clearUnread]⟩

/-- Settles O30. -/
theorem hostByteStoreThenLoad : Obligations.HostByteStoreThenLoad := by
  intro s addr b t hp hs hj
  have idle : (s.storeByte addr.toNat b).job = none := by simp only [State.storeByte, hj, Option.map_none]
  refine ⟨s.storeByte addr.toNat b, _, execHostOp_mw8_plain hp hs addr b,
    execHostOp_mr8_plain (s := s.storeByte addr.toNat b) hp hs addr t, ?_, ?_,
    fun a h => Memory.read_write_ne _ _ h⟩
  · rw [State.loadByte_of_idle idle]
    have stored : (s.storeByte addr.toNat b).mem.read addr.toNat = b := Memory.read_write_same _ _ _
    rw [stored]
    exact cellsSet_lookup_same _ _ _
  · rw [State.loadByte_of_idle idle]
    rfl

/-! ### Tier 1 -/

/-- Settles O3: each word is the word of its command. -/
theorem wordsOfTheFormatDecode : Obligations.WordsOfTheFormatDecode :=
  ⟨decode_encodeInstr (.nop 0 0), decode_encodeInstr (.nop 255 255), decode_encodeInstr (.encode 16 2),
    decode_encodeInstr (.quant 16 5), decode_encodeInstr (.clear 255 255)⟩

/-- Settles O5. -/
theorem pseudoInstructionsExpand : Obligations.PseudoInstructionsExpand :=
  ⟨rfl, rfl, rfl, rfl, rfl, rfl, rfl, rfl, rfl, rfl, rfl, rfl, rfl⟩

/-- Settles O27. -/
theorem pollRepeatsUntilMatch : Obligations.PollRepeatsUntilMatch := by
  intro s r mask val rest hj hp
  have kept : { s with program := .poll .word r.offset mask val :: rest } = s := by rw [← hp]
  have polled : step s = if s.readReg r &&& mask = val then .next { s with program := rest } else .next s := by
    simp only [step_of_idle hj, State.hostStep, hp, execHostOp_poll, State.readReg_withProgram, kept]
  exact ⟨fun h => by rw [polled, if_pos h], fun h => by rw [polled, if_neg h]⟩

end Sys2Proof.Machine
end

section
/-! SUPPORT. The fields of a sample (R107): their bounds, the masks that read them, and the sign bit flipped. -/

namespace Sys2Proof.Machine

/-- The pattern is a NaN, quiet or signalling (R107). -/
abbrev SampleIsNan (f : Word) : Prop := sampleExp f = 255 ∧ sampleFrac f ≠ 0

theorem sampleFrac_lt (f : Word) : sampleFrac f < 2 ^ 23 := (f.extractLsb' 0 23).isLt

/-- The exponent field as the shift and mask of R130. -/
theorem toNat_expMask (f : Word) : ((f >>> 23) &&& 0xFF).toNat = sampleExp f := by
  have mask : ((f >>> 23) &&& 0xFF).toNat = ((f >>> 23).extractLsb' 0 8).toNat * 2 ^ 0 :=
    toNat_and_fieldMask (f >>> 23) (start := 0) (len := 8) (by decide)
  rw [mask]
  simp [sampleExp]

/-- The fraction field as the mask of R130. -/
theorem toNat_fracMask (f : Word) : (f &&& 0x7FFFFF).toNat = sampleFrac f := by
  have mask : (f &&& 0x7FFFFF).toNat = (f.extractLsb' 0 23).toNat * 2 ^ 0 :=
    toNat_and_fieldMask f (start := 0) (len := 23) (by decide)
  rw [mask, Nat.pow_zero, Nat.mul_one, sampleFrac]

@[simp] theorem sampleExp_flipSign (f : Word) : sampleExp (f ^^^ 0x80000000) = sampleExp f := by
  have untouched : (0x80000000 : Word).extractLsb' 23 8 = 0#8 := by decide
  rw [sampleExp, BitVec.extractLsb'_xor, untouched, BitVec.xor_zero, sampleExp]

@[simp] theorem sampleFrac_flipSign (f : Word) : sampleFrac (f ^^^ 0x80000000) = sampleFrac f := by
  have untouched : (0x80000000 : Word).extractLsb' 0 23 = 0#23 := by decide
  rw [sampleFrac, BitVec.extractLsb'_xor, untouched, BitVec.xor_zero, sampleFrac]

@[simp] theorem sampleSign_flipSign (f : Word) : sampleSign (f ^^^ 0x80000000) = !sampleSign f := by
  have flipped : (0x80000000 : Word).getLsbD 31 = true := by decide
  rw [sampleSign, BitVec.getLsbD_xor, flipped, Bool.xor_true, sampleSign]

end Sys2Proof.Machine
end

section
/-! SUPPORT. The integer procedure (R133) as a sign and a magnitude: its equation in each case, the bound of the magnitude
and the symmetry. -/

namespace Sys2Proof.Machine

/-- The significand of a pattern: the fraction, with the leading one unless the exponent field is 0 (R108). -/
def significand (f : Word) : Nat := if sampleExp f = 0 then sampleFrac f else 2 ^ 23 + sampleFrac f

/-- The exponent field the significand is scaled by: a subnormal has the exponent of field 1 (R108). -/
def scaleExp (f : Word) : Nat := max (sampleExp f) 1

/-- The magnitude of R133, with its zero, subnormal and normal rows as one. -/
def quantMag (f : Word) (d : Depth) : Nat :=
  if 127 ≤ sampleExp f then d.scale else (significand f * d.scale) >>> (150 - scaleExp f)

theorem significand_lt (f : Word) : significand f < 2 ^ 24 := by
  have := sampleFrac_lt f
  unfold significand
  split_ifs <;> omega

/-- Below exponent 127 the shift of R133 is at least the 24 bits of the significand. -/
theorem significand_le_two_pow {f : Word} (h : sampleExp f < 127) : significand f ≤ 2 ^ (150 - scaleExp f) :=
  calc significand f ≤ 2 ^ 24 := (significand_lt f).le
    _ ≤ 2 ^ (150 - scaleExp f) := Nat.pow_le_pow_right (by decide) (by unfold scaleExp; omega)

theorem le_significand {f : Word} (h : sampleExp f ≠ 0) : 2 ^ 23 ≤ significand f := by
  rw [significand, if_neg h]
  exact Nat.le_add_right _ _

theorem quantize_of_nan {f : Word} (h : SampleIsNan f) (d : Depth) : quantize f d = 0 := if_pos h

/-- A pattern that is no NaN quantizes to its magnitude with its sign. -/
theorem quantize_of_not_nan {f : Word} (h : ¬SampleIsNan f) (d : Depth) :
    quantize f d = if sampleSign f then -(quantMag f d : Int) else quantMag f d := by
  have mag : quantMag f d = if 127 ≤ sampleExp f then d.scale
      else if sampleExp f = 0 then (sampleFrac f * d.scale) >>> 149
      else ((2 ^ 23 + sampleFrac f) * d.scale) >>> (150 - sampleExp f) := by
    unfold quantMag significand scaleExp
    split_ifs with h127 h0
    · rfl
    · rw [h0]; rfl
    · rw [Nat.max_eq_left (by omega)]
  rw [mag]
  exact if_neg h

/-- The magnitude never exceeds the scale. -/
theorem quantMag_le_scale (f : Word) (d : Depth) : quantMag f d ≤ d.scale := by
  unfold quantMag
  split_ifs with h
  · exact le_rfl
  · rw [Nat.shiftRight_eq_div_pow]
    exact Nat.div_le_of_le_mul (Nat.mul_le_mul_right _ (significand_le_two_pow (not_le.mp h)))

/-- The quantized integer lies in `[-S, S]` (R134). -/
theorem abs_quantize_le (f : Word) (d : Depth) : |quantize f d| ≤ d.scale := by
  by_cases h : SampleIsNan f
  · simp [quantize_of_nan h]
  · have bound : (quantMag f d : Int) ≤ d.scale := Int.ofNat_le.mpr (quantMag_le_scale f d)
    rw [quantize_of_not_nan h]
    split_ifs <;> simpa using bound

theorem quantMag_flipSign (f : Word) (d : Depth) : quantMag (f ^^^ 0x80000000) d = quantMag f d := by
  simp only [quantMag, significand, scaleExp, sampleExp_flipSign, sampleFrac_flipSign]

/-- Flipping the sign bit negates the quantized integer (R135). -/
theorem quantize_flipSign (f : Word) (d : Depth) : quantize (f ^^^ 0x80000000) d = -quantize f d := by
  have nan : SampleIsNan (f ^^^ 0x80000000) ↔ SampleIsNan f := by
    rw [SampleIsNan, sampleExp_flipSign, sampleFrac_flipSign]
  by_cases h : SampleIsNan f
  · rw [quantize_of_nan h, quantize_of_nan (nan.mpr h), neg_zero]
  · rw [quantize_of_not_nan h, quantize_of_not_nan (mt nan.mp h), sampleSign_flipSign, quantMag_flipSign]
    cases sampleSign f <;> simp

end Sys2Proof.Machine
end

section
/-! SUPPORT. The rule over exact rationals (R108, R132): clamp and truncation are odd and monotone, a pattern's value is its
magnitude with its sign, and the magnitude of R133 is the floor of the clamped and scaled value. -/

namespace Sys2Proof.Machine

/-! ### Clamp and truncation -/

theorem clampUnit_fin (q : ℚ) : clampUnit (.fin q) = max (-1) (min q 1) := by
  simp only [clampUnit]
  split_ifs with hlow hhigh
  · rw [max_eq_left ((min_le_left q 1).trans hlow.le)]
  · rw [min_eq_right hhigh.le, max_eq_right (by norm_num)]
  · rw [min_eq_left (not_lt.mp hhigh), max_eq_right (not_lt.mp hlow)]

theorem clampUnit_mono {x y : ℚ} (h : x ≤ y) : clampUnit (.fin x) ≤ clampUnit (.fin y) := by
  rw [clampUnit_fin, clampUnit_fin]
  exact max_le_max_left _ (min_le_min_right _ h)

theorem clampUnit_of_nonneg {q : ℚ} (h : 0 ≤ q) : clampUnit (.fin q) = min q 1 := by
  rw [clampUnit_fin, max_eq_right]
  exact le_min (by linarith) (by norm_num)

theorem clampUnit_neg_of_nonneg {q : ℚ} (h : 0 ≤ q) : clampUnit (.fin (-q)) = -min q 1 := by
  rw [clampUnit_fin, min_eq_left (by linarith), max_neg_neg, min_comm]

theorem truncRat_of_nonneg {y : ℚ} (h : 0 ≤ y) : truncRat y = ⌊y⌋ := if_pos h

theorem truncRat_of_nonpos {y : ℚ} (h : y ≤ 0) : truncRat y = ⌈y⌉ := by
  rcases h.eq_or_lt with rfl | h
  · simp [truncRat]
  · rw [truncRat, if_neg (not_le.mpr h), Int.floor_neg, neg_neg]

theorem truncRat_neg (y : ℚ) : truncRat (-y) = -truncRat y := by
  rcases le_total 0 y with h | h
  · rw [truncRat_of_nonneg h, truncRat_of_nonpos (neg_nonpos.mpr h), Int.ceil_neg]
  · rw [truncRat_of_nonpos h, truncRat_of_nonneg (neg_nonneg.mpr h), Int.floor_neg]

theorem truncRat_mono {y z : ℚ} (h : y ≤ z) : truncRat y ≤ truncRat z := by
  rcases le_total 0 y with hy | hy
  · rw [truncRat_of_nonneg hy, truncRat_of_nonneg (hy.trans h)]
    exact Int.floor_le_floor h
  · rcases le_total 0 z with hz | hz
    · calc truncRat y = ⌈y⌉ := truncRat_of_nonpos hy
        _ ≤ 0 := Int.ceil_nonpos.mpr hy
        _ ≤ ⌊z⌋ := Int.floor_nonneg.mpr hz
        _ = truncRat z := (truncRat_of_nonneg hz).symm
    · rw [truncRat_of_nonpos hy, truncRat_of_nonpos hz]
      exact Int.ceil_le_ceil h

/-! ### The value of a pattern -/

/-- The magnitude of a finite pattern's value (R108). -/
def sampleAbs (f : Word) : ℚ := significand f * 2 ^ ((scaleExp f : ℤ) - 150)

theorem sampleAbs_nonneg (f : Word) : 0 ≤ sampleAbs f := by unfold sampleAbs; positivity

theorem sampleValue_of_nan {f : Word} (h : SampleIsNan f) : sampleValue f = none := by
  simp [sampleValue, sampleClass, h]

theorem sampleValue_of_infinity {f : Word} (he : sampleExp f = 255) (hf : sampleFrac f = 0) :
    sampleValue f = some (if sampleSign f then .negInf else .posInf) := by
  simp [sampleValue, sampleClass, he, hf]

/-- A finite pattern denotes its magnitude with its sign. -/
theorem sampleValue_of_finite {f : Word} (h : sampleExp f ≠ 255) :
    sampleValue f = some (.fin (if sampleSign f then -sampleAbs f else sampleAbs f)) := by
  by_cases h0 : sampleExp f = 0
  · have small : sampleClass f = .zero ∨ sampleClass f = .subnormal := by
      rw [sampleClass, if_neg h, if_pos h0]
      split_ifs <;> simp
    have abs : sampleAbs f = sampleFrac f * 2 ^ (-149 : ℤ) := by simp [sampleAbs, significand, scaleExp, h0]
    rcases small with hc | hc <;> simp only [sampleValue, hc, abs, ite_mul, neg_mul, one_mul]
  · have normal : sampleClass f = .normal := by simp [sampleClass, h, h0]
    have abs : sampleAbs f = (2 ^ 23 + sampleFrac f) * 2 ^ ((sampleExp f : ℤ) - 150) := by
      rw [sampleAbs, significand, scaleExp, if_neg h0, Nat.max_eq_left (Nat.one_le_iff_ne_zero.mpr h0)]
      norm_cast
    simp only [sampleValue, normal, abs, ite_mul, neg_mul, one_mul]

/-- From exponent 127 on the magnitude is at least 1. -/
theorem one_le_sampleAbs {f : Word} (h : 127 ≤ sampleExp f) : 1 ≤ sampleAbs f := by
  have lead : (2 : ℚ) ^ (23 : ℤ) ≤ significand f := mod_cast le_significand (f := f) (by omega)
  have exp : (-23 : ℤ) ≤ (scaleExp f : ℤ) - 150 := by unfold scaleExp; omega
  calc (1 : ℚ) = 2 ^ (23 : ℤ) * 2 ^ (-23 : ℤ) := by norm_num
    _ ≤ significand f * 2 ^ ((scaleExp f : ℤ) - 150) :=
      mul_le_mul lead (zpow_le_zpow_right₀ (by norm_num) exp) (by positivity) (by positivity)

/-- Below exponent 127 the magnitude is the significand over the power of two that R133 shifts by. -/
theorem sampleAbs_eq_div {f : Word} (h : sampleExp f < 127) :
    sampleAbs f = significand f / (2 ^ (150 - scaleExp f) : Nat) := by
  have shift : (scaleExp f : ℤ) - 150 = -((150 - scaleExp f : Nat) : ℤ) := by unfold scaleExp; omega
  rw [sampleAbs, shift, zpow_neg, zpow_natCast, div_eq_mul_inv, Nat.cast_pow, Nat.cast_ofNat]

theorem sampleAbs_le_one {f : Word} (h : sampleExp f < 127) : sampleAbs f ≤ 1 := by
  rw [sampleAbs_eq_div h]
  exact div_le_one_of_le₀ (mod_cast significand_le_two_pow h) (by positivity)

/-! ### The procedure against the rule -/

/-- The magnitude of R133 is the floor of the clamped and scaled magnitude of the value. -/
theorem quantMag_eq_floor (f : Word) (d : Depth) : (quantMag f d : ℤ) = ⌊min (sampleAbs f) 1 * d.scale⌋ := by
  by_cases h : 127 ≤ sampleExp f
  · rw [quantMag, if_pos h, min_eq_right (one_le_sampleAbs h), one_mul, Int.floor_natCast]
  · have below : sampleExp f < 127 := not_le.mp h
    rw [quantMag, if_neg h, min_eq_left (sampleAbs_le_one below), sampleAbs_eq_div below, div_mul_eq_mul_div,
      ← Nat.cast_mul, Rat.floor_natCast_div_natCast, Nat.shiftRight_eq_div_pow,
      Int.natCast_ediv]

/-- Every pattern but a NaN denotes an extended real, clamped to its clamped magnitude with its sign. -/
theorem exists_clampUnit_of_not_nan {f : Word} (h : ¬SampleIsNan f) : ∃ x, sampleValue f = some x ∧
    clampUnit x = if sampleSign f then -min (sampleAbs f) 1 else min (sampleAbs f) 1 := by
  by_cases he : sampleExp f = 255
  · have hf : sampleFrac f = 0 := not_not.mp fun hf => h ⟨he, hf⟩
    refine ⟨_, sampleValue_of_infinity he hf, ?_⟩
    rw [min_eq_right (one_le_sampleAbs (by omega))]
    split_ifs <;> rfl
  · refine ⟨_, sampleValue_of_finite he, ?_⟩
    split_ifs
    · exact clampUnit_neg_of_nonneg (sampleAbs_nonneg f)
    · exact clampUnit_of_nonneg (sampleAbs_nonneg f)

/-- R133: the procedure that the commands run is the rule over exact rationals. -/
theorem quantize_eq_quantizeExact (f : Word) (d : Depth) : quantize f d = quantizeExact f d := by
  by_cases h : SampleIsNan f
  · simp only [quantize_of_nan h, quantizeExact, sampleValue_of_nan h]
  · obtain ⟨x, hx, hclamp⟩ := exists_clampUnit_of_not_nan h
    have nonneg : 0 ≤ min (sampleAbs f) 1 * d.scale :=
      mul_nonneg (le_min (sampleAbs_nonneg f) zero_le_one) (Nat.cast_nonneg _)
    simp only [quantize_of_not_nan h, quantizeExact, hx, hclamp, quantMag_eq_floor, ← truncRat_of_nonneg nonneg]
    split_ifs
    · rw [neg_mul, truncRat_neg]
    · rfl

end Sys2Proof.Machine
end

section
/-! SUPPORT. The code of a quantized integer (R134), and its bytes in QOUT and in the stream (R140, R141, R163, R165). -/

namespace Sys2Proof.Machine

theorem Depth.bits_pos (d : Depth) : 0 < d.bits := by cases d <;> decide

/-- The scale is the greatest two's-complement integer of its width (R131). -/
theorem Depth.scale_eq (d : Depth) : (d.scale : Int) = 2 ^ (d.bits - 1) - 1 := by cases d <;> rfl

/-- A code is the residue of its integer modulo 2^w. -/
theorem toNat_code (d : Depth) (q : Int) : ((code d q).toNat : Int) = q % 2 ^ d.bits := by
  rw [code, BitVec.toNat_ofInt, Int.toNat_of_nonneg (Int.emod_nonneg _ (by positivity)), Nat.cast_pow, Nat.cast_ofNat]

/-- An integer within the scale reads back from its code. -/
theorem toInt_code {d : Depth} {q : Int} (h : |q| ≤ d.scale) : (code d q).toInt = q := by
  obtain ⟨hlow, hhigh⟩ := abs_le.mp h
  rw [d.scale_eq] at hlow hhigh
  exact BitVec.toInt_ofInt_eq_self d.bits_pos (by omega) (by omega)

/-- The most negative code reads as an integer beyond the scale. -/
theorem code_ne_intMin {d : Depth} {q : Int} (h : |q| ≤ d.scale) : code d q ≠ BitVec.intMin d.bits := by
  intro heq
  obtain ⟨hlow, -⟩ := abs_le.mp h
  rw [← toInt_code h, heq, BitVec.toInt_intMin_of_pos d.bits_pos, d.scale_eq] at hlow
  omega

/-- The low bytes of a sign-extended code are the bytes of the code. -/
theorem extractLsb'_signExtend_code (d : Depth) (q : Int) {b : Nat} (hb : b < d.bytes) :
    ((code d q).signExtend 32).extractLsb' (8 * b) 8 = codeByte d q b := by
  have room : 8 * b + 8 ≤ d.bits ∧ d.bits ≤ 32 := by cases d <;> simp [Depth.bytes, Depth.bits] at hb ⊢ <;> omega
  ext k hk
  have inCode : 8 * b + k < d.bits := by omega
  have inWord : 8 * b + k < 32 := by omega
  rw [codeByte, BitVec.getElem_extractLsb', BitVec.getElem_extractLsb', BitVec.getLsbD_signExtend, if_pos inCode,
    decide_eq_true inWord, Bool.true_and]

/-- Byte `b` of the code of sample `i` of channel `c` stands at its position in the stream (R163). -/
theorem encodeStream_at_position {R : JobRecord} (m : Memory) {i c b : Nat} (hi : i < R.n.toNat) (hc : c < R.ch)
    (hb : b < R.bps) : (encodeStream R m)[R.position i c + b]? =
      some (codeByte R.depth (quantize (m.readWord (R.srcBase c + 4 * i)) R.depth) b) := by
  have slot : i * R.ch + c < R.ch * R.n.toNat :=
    calc i * R.ch + c < (i + 1) * R.ch := by rw [Nat.succ_mul]; omega
      _ ≤ R.n.toNat * R.ch := Nat.mul_le_mul_right _ hi
      _ = R.ch * R.n.toNat := Nat.mul_comm _ _
  have inStream : R.position i c + b < R.len :=
    calc R.position i c + b < (i * R.ch + c + 1) * R.bps := by rw [JobRecord.position, Nat.succ_mul]; omega
      _ ≤ R.len := Nat.mul_le_mul_right _ slot
  obtain ⟨slotDiv, slotMod⟩ : (R.position i c + b) / R.bps = i * R.ch + c ∧ (R.position i c + b) % R.bps = b :=
    (Nat.div_mod_unique (Nat.zero_lt_of_lt hb)).mpr ⟨by rw [JobRecord.position]; ring, hb⟩
  obtain ⟨frameDiv, frameMod⟩ : (i * R.ch + c) / R.ch = i ∧ (i * R.ch + c) % R.ch = c :=
    (Nat.div_mod_unique (Nat.zero_lt_of_lt hc)).mpr ⟨by ring, hc⟩
  rw [encodeStream_getElem? m inStream, slotDiv, slotMod, frameDiv, frameMod]

end Sys2Proof.Machine
end

section
/-! SUPPORT. The statements about the quantizer and QUANT, settled (40_quantizer.md). -/

namespace Sys2Proof.Machine

/-! ### Tier 2 -/

/-- Settles O36. -/
theorem integerProcedureIsExactTruncation : Obligations.IntegerProcedureIsExactTruncation := quantize_eq_quantizeExact

/-- Settles O9. -/
theorem quantWritesTruncatedSample : Obligations.QuantWritesTruncatedSample := by
  intro depth nch d s idle hd
  rw [exec_quant_supported idle (Depth.ofField_eq_some.mpr hd), quantize_eq_quantizeExact]
  rfl

/-- Settles O11: QOUT and the stream hold the bytes of one code. -/
theorem quantAndPackerAgree : Obligations.QuantAndPackerAgree := by
  intro depth nch d s idle hd
  refine ⟨_, exec_quant_supported idle (Depth.ofField_eq_some.mpr hd), ?_⟩
  rintro R m i c b rfl hi hc hb hf
  calc (encodeStream R m)[R.position i c + b]?
      = some (codeByte R.depth (quantize s.qin R.depth) b) := by rw [encodeStream_at_position m hi hc hb, hf]
    _ = _ := congrArg some (extractLsb'_signExtend_code R.depth _ hb).symm

/-- Settles O37: the code represents the integer because the integer lies within the scale. -/
theorem quantizedIntegerFitsItsCode : Obligations.QuantizedIntegerFitsItsCode := by
  refine ⟨fun f => ?_, fun f d => ⟨toNat_code d _, toInt_code (abs_quantize_le f d), code_ne_intMin (abs_quantize_le f d)⟩,
    rfl, rfl, rfl, rfl⟩
  obtain ⟨low16, high16⟩ := abs_le.mp (abs_quantize_le f .d16)
  obtain ⟨low8, high8⟩ := abs_le.mp (abs_quantize_le f .d8)
  exact ⟨low16, high16, low8, high8⟩

/-- Settles O38: the symmetry for every pattern; the eleven rows of the table are evaluated. -/
theorem signFlipNegatesSample : Obligations.SignFlipNegatesSample :=
  ⟨quantize_flipSign, by decide⟩

/-- Settles O39: clamp, scale and truncation each keep the order. -/
theorem quantizationIsMonotone : Obligations.QuantizationIsMonotone := by
  intro f g d x y hx hy hxy
  simp only [quantize_eq_quantizeExact, quantizeExact, hx, hy]
  exact truncRat_mono (mul_le_mul_of_nonneg_right (clampUnit_mono hxy) (Nat.cast_nonneg _))

/-! ### Tier 1 -/

/-- Settles O10. -/
theorem quantUnsupportedDepthRaises : Obligations.QuantUnsupportedDepthRaises := fun _ _ _ idle h8 h16 =>
  exec_quant_unsupported idle (Depth.ofField_eq_none.mpr ⟨h8, h16⟩)

/-- Settles O35: the masks of the statement are the fields of the pattern. -/
theorem nanQuantizesToZero : Obligations.NanQuantizesToZero := by
  intro f d hexp hfrac
  refine quantize_of_nan ⟨?_, fun h => hfrac (BitVec.eq_of_toNat_eq ?_)⟩ d
  · rw [← toNat_expMask, hexp]
    rfl
  · rw [toNat_fracMask, h]
    rfl

end Sys2Proof.Machine
end

section
/-! SUPPORT. The stream's length, the division of a position into its sample, channel and byte (R162, R163), and what the
stream depends on (R170). -/

namespace Sys2Proof.Machine

/-- The stream has J.len bytes (R162). -/
@[simp] theorem encodeStream_length (R : JobRecord) (m : Memory) : (encodeStream R m).length = R.len := by
  have frame : ∀ i, ((List.range R.ch).flatMap fun c =>
      packBytes R.depth (quantize (m.readWord (R.srcBase c + 4 * i)) R.depth)).length = R.ch * R.bps :=
    fun _ => length_flatMap_range R.ch R.bps _ fun _ => packBytes_length _ _
  calc (encodeStream R m).length = R.n.toNat * (R.ch * R.bps) := length_flatMap_range _ _ _ frame
    _ = R.len := by rw [JobRecord.len]; ring

/-- An offset of the stream holds the byte that `getD` names there. -/
theorem encodeStream_getElem?_eq_getD (R : JobRecord) (m : Memory) {k : Nat} (hk : k < R.len) :
    (encodeStream R m)[k]? = some ((encodeStream R m).getD k 0) := by
  rw [List.getD_eq_getElem?_getD, encodeStream_getElem? m hk]
  rfl

/-- A byte of a code is its digit of 2^(8b) (R165). -/
theorem codeByte_eq_digit (d : Depth) (q : Int) (b : Nat) :
    codeByte d q b = BitVec.ofNat 8 ((code d q).toNat / 2 ^ (8 * b)) := by
  rw [codeByte, BitVec.extractLsb', Nat.shiftRight_eq_div_pow]

/-- Byte `b` at the position of sample `i` of channel `c` gives back `i`, `c` and `b` by division (R163). -/
theorem JobRecord.position_divMod {R : JobRecord} {i c b : Nat} (hc : c < R.ch) (hb : b < R.bps) :
    (R.position i c + b) / R.bps / R.ch = i ∧ (R.position i c + b) / R.bps % R.ch = c ∧
      (R.position i c + b) % R.bps = b := by
  obtain ⟨slot, byte⟩ : (R.position i c + b) / R.bps = i * R.ch + c ∧ (R.position i c + b) % R.bps = b :=
    (Nat.div_mod_unique (Nat.zero_lt_of_lt hb)).mpr ⟨by rw [JobRecord.position]; ring, hb⟩
  obtain ⟨frame, channel⟩ : (i * R.ch + c) / R.ch = i ∧ (i * R.ch + c) % R.ch = c :=
    (Nat.div_mod_unique (Nat.zero_lt_of_lt hc)).mpr ⟨by ring, hc⟩
  exact ⟨slot ▸ frame, slot ▸ channel, byte⟩

/-- A sample of a participating channel is read from source bytes only (R164). -/
theorem JobRecord.readWord_congr {R : JobRecord} {m m' : Memory} (h : ∀ a, R.inSource a → m.read a = m'.read a)
    {c i : Nat} (hc : c < R.ch) (hi : i < R.n.toNat) :
    m.readWord (R.srcBase c + 4 * i) = m'.readWord (R.srcBase c + 4 * i) := by
  have byte : ∀ b, b < 4 → m.read (R.srcBase c + 4 * i + b) = m'.read (R.srcBase c + 4 * i + b) := by
    intro b hb
    rw [Nat.add_assoc]
    exact h _ (R.inSource_of_sourceByte hc (by rw [JobRecord.srcLen]; omega))
  simp only [Memory.readWord, byte 1 (by decide), byte 2 (by decide), byte 3 (by decide),
    show m.read (R.srcBase c + 4 * i) = _ from byte 0 (by decide), Nat.add_zero]

/-- The stream depends on the source bytes only (R170). -/
theorem encodeStream_congr {R : JobRecord} {m m' : Memory} (h : ∀ a, R.inSource a → m.read a = m'.read a) :
    encodeStream R m = encodeStream R m' := by
  refine List.flatMap_congr fun i hi => List.flatMap_congr fun c hc => ?_
  rw [JobRecord.readWord_congr h (List.mem_range.mp hc) (List.mem_range.mp hi)]

/-- Writes inside a destination change no byte outside it. -/
theorem Memory.read_writeAll_notInDest {R : JobRecord} {ws : List (Nat × Byte)} (hw : ∀ w ∈ ws, w.1 < R.len)
    (m : Memory) {a : Nat} (ha : ¬R.inDest a) : (m.writeAll R.dst.toNat ws).read a = m.read a := by
  refine Memory.read_writeAll_off _ _ _ _ fun w hmem heq => ha ?_
  have := hw w hmem
  exact ⟨by omega, by omega⟩

end Sys2Proof.Machine
end

section
/-! SUPPORT. ENCODE's checks against their plain arithmetic (R166, R222), and which launches the platform lets through
(R72, R82). -/

namespace Sys2Proof.Machine

theorem JobRecord.srcOutOfRange_iff {R : JobRecord} : R.srcOutOfRange ↔
    2 ^ 32 < R.src0.toNat + R.srcLen ∨ (R.layout = .stereo ∧ 2 ^ 32 < R.src1.toNat + R.srcLen) := by
  simp only [JobRecord.srcOutOfRange, JobRecord.mem_sources, or_and_right, exists_or, and_assoc, exists_eq_left,
    exists_and_left]

theorem JobRecord.overlaps_iff {R : JobRecord} : R.overlaps ↔
    0 < R.len ∧ ((R.dst.toNat < R.src0.toNat + R.srcLen ∧ R.src0.toNat < R.dst.toNat + R.len) ∨
      (R.layout = .stereo ∧ R.dst.toNat < R.src1.toNat + R.srcLen ∧ R.src1.toNat < R.dst.toNat + R.len)) := by
  simp only [JobRecord.overlaps, JobRecord.mem_sources, or_and_right, exists_or, and_assoc, exists_eq_left,
    exists_and_left]
  tauto

/-- The code pair that reports an outcome of the checks, none when they pass (R220, R227). -/
def verdictOf : Except CmdError JobRecord → Option (BitVec 4 × BitVec 4)
  | .error e => some (e.errcode, e.errinfo)
  | .ok _ => none

/-- The checks report what their plain arithmetic says (R166, R222). -/
theorem State.encodeVerdict_eq (s : State) (depth nch : Byte) :
    encodeVerdict depth nch s = verdictOf (s.encodeChecks depth nch) := by
  cases hd : Depth.ofField depth with
  | none => simp only [encodeVerdict, State.encodeChecks, hd, if_pos (Depth.ofField_eq_none.mp hd), verdictOf]; rfl
  | some d =>
    have bits := Depth.ofField_eq_some.mp hd
    have supported : ¬(d.bits ≠ 8 ∧ d.bits ≠ 16) := by cases d <;> decide
    cases hl : Layout.ofField nch with
    | none =>
      simp only [encodeVerdict, State.encodeChecks, hd, hl, bits, if_neg supported, if_pos (Layout.ofField_eq_none.mp hl),
        verdictOf]
      rfl
    | some lay =>
      obtain ⟨nonzero, mono⟩ := Layout.ofField_eq_some.mp hl
      have channels : (if nch = 1 then 1 else 2) = lay.channels := by
        cases lay with
        | mono => rw [if_pos (mono.mp rfl)]; rfl
        | stereo => rw [if_neg fun h => Layout.noConfusion (mono.mpr h)]; rfl
      have stereo : lay.channels = 2 ↔ lay = .stereo := by cases lay <;> decide
      simp only [encodeVerdict, State.encodeChecks, hd, hl, if_neg supported, if_neg nonzero, channels, stereo, bits,
        JobRecord.srcOutOfRange_iff, JobRecord.overlaps_iff]
      simp only [apply_ite verdictOf]
      rfl

/-- A job with no region off the memory or in the window is not refused (R72, R82). -/
theorem launchRefusal_of_launchable {p : Platform} {R : JobRecord} (h : launchable p R) : launchRefusal p R = none := by
  obtain ⟨dstPresent, dstClear⟩ := h _ _ (.inl rfl)
  have source : ∀ b ∈ R.sources, ¬Lacks p b R.srcLen ∧ ¬WindowMeets p b R.srcLen := fun b hb => h _ _ (.inr ⟨b, hb, rfl⟩)
  have present : ¬(Lacks p R.dst.toNat R.len ∨ ∃ b ∈ R.sources, Lacks p b R.srcLen) := by
    rintro (hd | ⟨b, hb, hs⟩)
    · exact dstPresent hd
    · exact (source b hb).1 hs
  have clear : ¬(WindowMeets p R.dst.toNat R.len ∨ ∃ b ∈ R.sources, WindowMeets p b R.srcLen) := by
    rintro (hd | ⟨b, hb, hs⟩)
    · exact dstClear hd
    · exact (source b hb).2 hs
  rw [launchRefusal, if_neg present, if_neg clear]

/-- Checks that report nothing latch the record of the depth and layout asked for (R166). -/
theorem State.encodeChecks_of_verdict_none {s : State} {depth nch : Byte} {d : Depth} {lay : Layout}
    (hv : encodeVerdict depth nch s = none) (hd : depth.toNat = d.bits) (hlay : lay = .mono ↔ nch = 1) :
    s.encodeChecks depth nch = .ok (latchedRecord d lay s) := by
  rw [State.encodeVerdict_eq] at hv
  cases hc : s.encodeChecks depth nch with
  | error e => rw [hc] at hv; cases hv
  | ok R =>
    obtain ⟨-, d', lay', hd', hlay', rfl, -⟩ := State.encodeChecks_ok hc
    obtain ⟨nonzero, -⟩ := Layout.ofField_eq_some.mp hlay'
    obtain rfl : d = d' := Option.some.inj ((Depth.ofField_eq_some.mpr hd).symm.trans hd')
    obtain rfl : lay = lay' := Option.some.inj ((Layout.ofField_eq_some.mpr ⟨nonzero, hlay⟩).symm.trans hlay')
    rfl

/-- A verdict is the code pair of the error that the checks report. -/
theorem State.encodeChecks_of_verdict_some {s : State} {depth nch : Byte} {codes : BitVec 4 × BitVec 4}
    (hv : encodeVerdict depth nch s = some codes) :
    ∃ e, s.encodeChecks depth nch = .error e ∧ (e.errcode, e.errinfo) = codes := by
  rw [State.encodeVerdict_eq] at hv
  cases hc : s.encodeChecks depth nch with
  | error e => rw [hc] at hv; exact ⟨e, rfl, Option.some.inj hv⟩
  | ok R => rw [hc] at hv; cases hv

/-- The word accepted and the results cleared are no matter of the checks. -/
theorem State.encodeChecks_encodeStart (s : State) (w : Word) (depth nch : Byte) :
    (s.encodeStart w).encodeChecks depth nch = s.encodeChecks depth nch := rfl

/-- The state an ENCODE that fails leaves, written out (R166, R223). -/
theorem State.raise_encodeStart (s : State) (w : Word) (e : CmdError) : (s.encodeStart w).raise e = { s with
    cmd := w
    outLen := 0
    outFmt := 0
    status := { done := false, err := true, drop := s.status.drop, errcode := e.errcode, errinfo := e.errinfo } } := rfl

/-- The state an ENCODE that starts its job leaves, written out (R166). -/
theorem State.startJob_encodeStart (s : State) (w : Word) (R : JobRecord) : (s.encodeStart w).startJob R = { s with
    cmd := w
    outLen := 0
    outFmt := 0
    status := { done := false, err := false, drop := s.status.drop, errcode := 0, errinfo := 0 }
    job := some (Job.fresh R s.draws)
    draws := s.draws + 1 } := rfl

section idle
variable {s : State} (idle : s.busy = false) {depth nch : Byte}
include idle

/-- An ENCODE whose checks fail on the state as it stands reports their error (R166). -/
theorem exec_encode_of_checks_error {e : CmdError} (hc : s.encodeChecks depth nch = .error e) :
    exec (.encode depth nch) s = .next ((s.encodeStart (encodeInstr (.encode depth nch))).raise e) :=
  exec_encode_error idle ((s.encodeChecks_encodeStart _ depth nch).trans hc)

theorem exec_encode_of_checks_refused {R : JobRecord} {r : Refusal} (hc : s.encodeChecks depth nch = .ok R)
    (hl : launchRefusal s.platform R = some r) : exec (.encode depth nch) s = .refused r :=
  exec_encode_refused idle ((s.encodeChecks_encodeStart _ depth nch).trans hc) hl

theorem exec_encode_of_checks_starts {R : JobRecord} (hc : s.encodeChecks depth nch = .ok R)
    (hl : launchRefusal s.platform R = none) :
    exec (.encode depth nch) s = .next ((s.encodeStart (encodeInstr (.encode depth nch))).startJob R) :=
  exec_encode_starts idle ((s.encodeChecks_encodeStart _ depth nch).trans hc) hl

end idle

/-- An ENCODE after which a job runs, where none did, passed its checks and started it. Its word is left open: nothing
that the job does depends on it. -/
theorem exec_encode_starts_inv {s t : State} {J : Job} {depth nch : Byte} (idle : s.busy = false)
    (h : exec (.encode depth nch) s = .next t) (hJ : t.job = some J) :
    ∃ R w, s.encodeChecks depth nch = .ok R ∧ t = (s.encodeStart w).startJob R := by
  cases hc : s.encodeChecks depth nch with
  | error e =>
    rw [exec_encode_of_checks_error idle hc, State.raise_encodeStart] at h
    obtain rfl := Host.Outcome.next.inj h
    simp only [State.busy, show s.job = some J from hJ, Option.isSome_some, reduceCtorEq] at idle
  | ok R =>
    cases hl : launchRefusal s.platform R with
    | some r =>
      rw [exec_encode_of_checks_refused idle hc hl] at h
      cases h
    | none =>
      rw [exec_encode_of_checks_starts idle hc hl] at h
      exact ⟨R, _, rfl, (Host.Outcome.next.inj h).symm⟩

/-- Every NCH of 2 or more selects stereo (R105, R161). -/
theorem Layout.ofField_of_two_le {nch : Byte} (h : 2 ≤ nch.toNat) : Layout.ofField nch = some .stereo := by
  refine Layout.ofField_eq_some.mpr ⟨?_, iff_of_false (by decide) ?_⟩ <;> rintro rfl <;> exact absurd h (by decide)

/-- The checks see NCH only through the layout that it selects (R161). -/
theorem State.encodeChecks_of_two_le (s : State) (depth : Byte) {nch : Byte} (h : 2 ≤ nch.toNat) :
    s.encodeChecks depth nch = s.encodeChecks depth 2 := by
  simp only [State.encodeChecks, Layout.ofField_of_two_le h, Layout.ofField_of_two_le (nch := 2) (by decide)]

end Sys2Proof.Machine
end

section
/-! SUPPORT. The engine's step by whether it is the job's last: what it leaves of the state, and that the last one makes
every access that is left (R167, R168). -/

namespace Sys2Proof.Machine

/-- Memory once a job's remaining accesses are made (R168). -/
def Job.finalMemory (J : Job) (m : Memory) : Memory :=
  m.writeAll J.params.dst.toNat ((J.fetch (fun _ _ => true) m).readyBytes fun _ => true)

/-- The state after an engine step that does not end its job (R167). -/
def State.afterTurn (s : State) (J : Job) (take : Nat → Nat → Bool) (put : Nat → Bool) : State :=
  { s with
    mem := s.mem.writeAll J.params.dst.toNat ((J.fetch take s.mem).readyBytes put)
    job := some (J.afterAccesses s.mem take put) }

/-- The engine step that ends a job makes every access that is left, then completes (R168). -/
theorem State.engineStep_last {J : Job} (h : J.lastStep = true) (s : State) : s.engineStep J =
    { s with mem := J.finalMemory s.mem }.completeJob (J.fetch (fun _ _ => true) s.mem) := by
  rw [State.engineStep, h]
  rfl

/-- Any other engine step makes the accesses of its draw and goes on (R167). -/
theorem State.engineStep_notLast {J : Job} (h : J.lastStep = false) (s : State) :
    ∃ take put, s.engineStep J = s.afterTurn J take put := by
  rw [State.engineStep, h]
  exact ⟨_, _, rfl⟩

/-- What the engine writes in a step leaves every byte outside the destination alone (R164). -/
theorem Job.read_writeReady_notInDest (J : Job) (take : Nat → Nat → Bool) (put : Nat → Bool) (m : Memory) {a : Nat}
    (ha : ¬J.params.inDest a) :
    (m.writeAll J.params.dst.toNat ((J.fetch take m).readyBytes put)).read a = m.read a :=
  Memory.read_writeAll_notInDest (fun _ hw => (Job.mem_readyBytes (J := J.fetch take m)).mp hw |>.1) m ha

/-- Completion, raced or not, leaves every byte outside the destination alone (R75, R168). -/
theorem State.read_completeJob_notInDest (s : State) {J : Job} {a : Nat} (ha : ¬J.params.inDest a) :
    (s.completeJob J).mem.read a = s.mem.read a := by
  unfold State.completeJob
  split_ifs
  · exact Memory.read_writeAll_notInDest (fun _ hw => mem_freeBytes hw) s.mem ha
  · rfl

theorem State.read_engineStep_notInDest (s : State) {J : Job} {a : Nat} (ha : ¬J.params.inDest a) :
    (s.engineStep J).mem.read a = s.mem.read a := by
  cases h : J.lastStep with
  | true =>
    rw [State.engineStep_last h]
    exact (State.read_completeJob_notInDest (J := J.fetch _ s.mem) _ ha).trans
      (J.read_writeReady_notInDest _ _ s.mem ha)
  | false =>
    obtain ⟨take, put, heq⟩ := State.engineStep_notLast h s
    rw [heq]
    exact J.read_writeReady_notInDest take put s.mem ha

/-- The registers that an engine step may write: OUT_LEN, OUT_FMT and STATUS (R168). -/
theorem State.readReg_engineStep (s : State) (J : Job) {r : Reg} (hlen : r ≠ .outLen) (hfmt : r ≠ .outFmt)
    (hst : r ≠ .status) : (s.engineStep J).readReg r = s.readReg r := by
  have kept : ∀ mem job len fmt st draws, { s with
      mem := mem, job := job, outLen := len, outFmt := fmt, status := st, draws := draws }.readReg r = s.readReg r := by
    intros
    cases r with
    | outLen => exact absurd rfl hlen
    | outFmt => exact absurd rfl hfmt
    | status => exact absurd rfl hst
    | _ => rfl
  cases h : J.lastStep with
  | true => rw [State.engineStep_last h]; exact kept _ _ _ _ _ _
  | false =>
    obtain ⟨take, put, heq⟩ := State.engineStep_notLast h s
    rw [heq]
    exact kept _ _ _ _ _ _

/-- With every source byte picked, every byte of the stream can be written. -/
theorem Job.fetch_all_streamByte (J : Job) (m : Memory) {k : Nat} (hk : k < J.params.len) :
    ∃ b, (J.fetch (fun _ _ => true) m).streamByte k = some b := by
  obtain ⟨hi, hc, -, -⟩ := JobRecord.slot_bounds hk
  obtain ⟨f, hf⟩ := Option.isSome_iff_exists.mp (J.fetch_all_sample _ m (fun _ _ => rfl) hc hi)
  simp only [Job.streamByte, Job.fetch_params, hf]
  exact ⟨_, rfl⟩

/-- After the last step's accesses every destination byte is final: it was written before, or it was ready (R168). -/
theorem Job.Accords.read_finalMemory {m₀ m : Memory} {J : Job} (h : J.Accords m₀ m) {k : Nat} (hk : k < J.params.len) :
    (J.finalMemory m).read (J.params.dst.toNat + k) = (encodeStream J.params m₀).getD k 0 := by
  have final := (h.fetch fun _ _ => true).read_writeReady (fun _ => true) k
  simp only [Job.fetch_params] at final
  rw [Job.finalMemory, final]
  split_ifs with ready
  · rfl
  · have written : k ∈ J.prog.written := by
      by_contra hw
      obtain ⟨b, hb⟩ := J.fetch_all_streamByte m hk
      exact ready (List.mem_map.mpr ⟨(k, b), Job.mem_readyBytes.mpr ⟨hk, hw, rfl, hb⟩, rfl⟩)
    rw [h.dest k hk, if_pos written]

end Sys2Proof.Machine
end

section
/-! SUPPORT. A job's completion: the state it leaves, that only the engine's last step sets DONE and ends BUSY, and that a
job left alone reaches it (R167 to R170, R269). -/

namespace Sys2Proof.Machine

/-- The state with a job of this record completed, its memory given: no job, OUT_LEN, OUT_FMT and DONE set (R168). -/
def State.completed (s : State) (R : JobRecord) (m : Memory) : State :=
  { s with
    job := none
    mem := m
    outLen := BitVec.ofNat 32 R.len
    outFmt := R.outFmt
    status := { s.status with done := true } }

/-- The destination in this memory holds the stream encoded from `m₀` (R170). -/
def JobRecord.HoldsStream (R : JobRecord) (m₀ m : Memory) : Prop :=
  ∀ j, j < R.len → some (m.read (R.dst.toNat + j)) = (encodeStream R m₀)[j]?

/-- The last step of a job without a race completes it with the stream of the memory at its acceptance (R168, R170). -/
theorem State.engineStep_last_unraced {m₀ : Memory} {s : State} {J : Job} (hl : J.lastStep = true)
    (hr : J.prog.raced = false) (h : J.Accords m₀ s.mem) :
    ∃ m, s.engineStep J = s.completed J.params m ∧ J.params.HoldsStream m₀ m := by
  refine ⟨J.finalMemory s.mem, ?_, fun j hj => ?_⟩
  · simp only [State.engineStep_last hl, State.completeJob, Job.fetch_raced, hr]
    rfl
  · rw [encodeStream_getElem?_eq_getD _ _ hj, ← h.read_finalMemory hj]

/-- A host operation leaves BUSY as it is while a job runs, or is the reset input (R24, R260). -/
theorem execHostOp_of_busy {op : HostOp} {s t : State} (hb : s.busy = true) (h : execHostOp op s = .next t) :
    t.busy = true ∨ t = s.resetInput := by
  rcases execHostOp_block_cases h with ⟨i, hi⟩ | ⟨idle, -⟩ | hq | ⟨-, rfl⟩
  · rw [exec_of_busy hb] at hi
    exact .inl (Host.Outcome.next.inj hi ▸ hb)
  · exact absurd (hb.symm.trans idle) (by decide)
  · exact .inl (hq.busy.trans hb)
  · exact .inr rfl

/-- Of a running job's steps only the engine's last one leaves DONE set and BUSY 0: the reset input clears DONE
(R43, R167). -/
theorem step_completes {s s' : State} {J : Job} (hJ : s.job = some J) (h : step s = .next s') (idle : s'.busy = false)
    (done : s'.status.done = true) : J.lastStep = true ∧ s' = s.engineStep J := by
  rcases step_next_cases h with ⟨J', hJ', -, rfl⟩ | ⟨op, rest, -, hn, -⟩ | ⟨op, rest, J', -, -, h⟩ | ⟨-, hn, -⟩
  · obtain rfl : J = J' := Option.some.inj (hJ.symm.trans hJ')
    refine ⟨?_, rfl⟩
    by_contra hl
    obtain ⟨take, put, heq⟩ := State.engineStep_notLast (Bool.eq_false_iff.mpr hl) s
    rw [heq] at idle
    cases idle
  · rw [hn] at hJ; cases hJ
  · have hb : s.busy = true := Option.isSome_iff_exists.mpr ⟨J, hJ⟩
    have hb' : { s.countHostOp with program := rest }.busy = true := s.countHostOp_busy.trans hb
    rcases execHostOp_of_busy hb' h with busy | rfl
    · exact absurd (busy.symm.trans idle) (by decide)
    · cases done
  · rw [hn] at hJ; cases hJ

/-- OUT_FMT of a record, as the sum of its fields at their places (R31). -/
theorem JobRecord.toNat_outFmt (R : JobRecord) :
    R.outFmt.toNat = R.layout.channels + R.depth.bits * 2 ^ 8 + (R.depth.bits / 8) * 2 ^ 16 := by
  unfold JobRecord.outFmt JobRecord.ch JobRecord.bps
  cases R.layout <;> cases R.depth <;> rfl

/-- The engine moves once the host's program is over (log 3). -/
theorem step_of_job_alone {s : State} {J : Job} (hJ : s.job = some J) (hp : s.program = []) :
    step s = .next (s.engineStep J) := by
  have moves : s.engineMoves J = true := by rw [State.engineMoves, hp]; rfl
  rw [step_of_job hJ, if_pos moves]

/-- A run whose first step answers goes on from that answer. -/
theorem core_run_succ {s t : State} (h : step s = .next t) (k : Nat) : core.run (k + 1) s = core.run k t := by
  have : core.step s = .next t := h
  simp only [Host.Core.run, this]

/-- A legal job in accord with the memory at its acceptance, left alone with at most `n` steps before its last, completes
with its stream; nothing outside its destination changes (R167, R168, R269). -/
theorem run_completes {m₀ : Memory} (n : Nat) {s : State} {J : Job} (hJ : s.job = some J) (hp : s.program = [])
    (hR : J.params.Legal) (hr : J.prog.raced = false) (h : J.Accords m₀ s.mem)
    (hn : Config.jobSteps J.prog.draw ≤ J.prog.steps + n) :
    ∃ k m, 1 ≤ k ∧ core.run k s = .next (s.completed J.params m) ∧ J.params.HoldsStream m₀ m ∧
      ∀ a, ¬J.params.inDest a → m.read a = s.mem.read a := by
  induction n generalizing s J with
  | zero =>
    obtain ⟨m, heq, hold⟩ := State.engineStep_last_unraced (decide_eq_true hn) hr h
    refine ⟨1, m, le_refl 1, (core_run_succ (step_of_job_alone hJ hp) 0).trans (congrArg _ heq), hold, fun a ha => ?_⟩
    rw [← s.read_engineStep_notInDest ha, heq]
    rfl
  | succ n ih =>
    cases hl : J.lastStep with
    | true => exact ih hJ hp hR hr h ((of_decide_eq_true hl).trans (Nat.le_add_right _ _))
    | false =>
      obtain ⟨take, put, heq⟩ := State.engineStep_notLast hl s
      have first : step s = .next (s.afterTurn J take put) := heq ▸ step_of_job_alone hJ hp
      obtain ⟨k, m, -, hrun, hold, frame⟩ := ih (s := s.afterTurn J take put) (J := J.afterAccesses s.mem take put)
        rfl hp hR hr (h.afterAccesses hR take put)
        (by simp only [Job.afterAccesses, Job.fetch_steps, Job.fetch_draw]; omega)
      refine ⟨k + 1, m, Nat.le_add_left 1 k, (core_run_succ first k).trans hrun, hold, fun a ha => ?_⟩
      exact (frame a ha).trans (J.read_writeReady_notInDest take put s.mem ha)

end Sys2Proof.Machine
end

section
/-! SUPPORT. The statements about ENCODE's acceptance, the packed stream and the job's run, settled
(41_interleave_pack.md). -/

namespace Sys2Proof.Machine

/-! ### Tier 3 -/

/-- Settles O45: the completing step is the engine's last, and the account of the job makes its every byte final. -/
theorem unracedCompletionHoldsTheStream : Obligations.UnracedCompletionHoldsTheStream := by
  intro m₀ s s' J hinv hs hJ hr h idle done
  obtain ⟨-, -, -, -, hjob⟩ := hinv
  obtain ⟨⟨-, short, -, -⟩, -⟩ := hjob J hJ
  obtain ⟨hl, rfl⟩ := step_completes hJ h idle done
  obtain ⟨m, heq, hold⟩ := State.engineStep_last_unraced hl hr (State.tracks_iff.mp hs J hJ hr)
  refine ⟨?_, fun a ha => s.read_engineStep_notInDest ha, ?_, ?_⟩ <;> rw [heq]
  · exact hold
  · exact (BitVec.toNat_ofNat _ _).trans (Nat.mod_eq_of_lt short)
  · exact J.params.toNat_outFmt

/-! ### Tier 2 -/

/-- Settles O12: the checks report the code pair of the plain arithmetic. -/
theorem encodeReportsFirstFailingCheck : Obligations.EncodeReportsFirstFailingCheck := by
  intro depth nch s errcode errinfo idle hv
  obtain ⟨e, hc, codes⟩ := State.encodeChecks_of_verdict_some hv
  cases codes
  rw [exec_encode_of_checks_error idle hc, State.raise_encodeStart]

/-- Settles O13. -/
theorem encodeLatchesTheJob : Obligations.EncodeLatchesTheJob := by
  intro depth nch d lay s idle hv hd hlay hl
  rw [exec_encode_of_checks_starts idle (State.encodeChecks_of_verdict_none hv hd hlay) (launchRefusal_of_launchable hl),
    State.startJob_encodeStart, Job.fresh]

/-- Settles O15: both words select stereo, so their checks come to the same end. -/
theorem moreThanTwoChannelsActAsTwo : Obligations.MoreThanTwoChannelsActAsTwo := by
  intro depth nch s t idle two h
  have same := s.encodeChecks_of_two_le depth two
  cases hc : s.encodeChecks depth 2 with
  | error e =>
    rw [exec_encode_of_checks_error idle (same.trans hc), State.raise_encodeStart] at h
    obtain rfl := Host.Outcome.next.inj h
    rw [exec_encode_of_checks_error idle hc, State.raise_encodeStart]
  | ok R =>
    cases hl : launchRefusal s.platform R with
    | some r =>
      rw [exec_encode_of_checks_refused idle (same.trans hc) hl] at h
      cases h
    | none =>
      rw [exec_encode_of_checks_starts idle (same.trans hc) hl, State.startJob_encodeStart] at h
      obtain rfl := Host.Outcome.next.inj h
      rw [exec_encode_of_checks_starts idle hc hl, State.startJob_encodeStart]

/-- Settles O40. -/
theorem streamPlacesEverySample : Obligations.StreamPlacesEverySample := by
  intro R m
  refine ⟨encodeStream_length R m, fun i c b hi hc hb => ?_⟩
  rw [← codeByte_eq_digit]
  exact encodeStream_at_position m hi hc hb

/-- Settles O41: division recovers the sample, the channel and the byte of an offset. -/
theorem positionsTileTheStream : Obligations.PositionsTileTheStream := by
  intro R k hk
  obtain ⟨hi, hc, hb, hsum⟩ := JobRecord.slot_bounds hk
  refine ⟨(k / R.bps / R.ch, k / R.bps % R.ch, k % R.bps), ⟨hi, hc, hb, hsum⟩, ?_⟩
  rintro ⟨i, c, b⟩ ⟨-, hc', hb', rfl⟩
  obtain ⟨sample, channel, byte⟩ := JobRecord.position_divMod (i := i) hc' hb'
  rw [sample, channel, byte]

/-- Settles O42: a legal job's destination holds no source byte. -/
theorem encodingTwiceGivesTheSameBytes : Obligations.EncodingTwiceGivesTheSameBytes := by
  refine ⟨fun R m m' h => encodeStream_congr h, fun R m ws hR hw => encodeStream_congr fun a ha => ?_⟩
  exact Memory.read_writeAll_notInDest hw m fun hd => hR.not_inSource hd ha

/-- Settles O43: a job starts in accord with memory as it is, and, left alone, takes its steps and completes. -/
theorem encodeCompletesWithItsStream : Obligations.EncodeCompletesWithItsStream := by
  intro depth nch s s₁ J idle hp h hJ
  obtain ⟨R, w, hc, rfl⟩ := exec_encode_starts_inv idle h hJ
  cases hJ
  exact run_completes (Config.jobSteps s.draws) rfl hp (State.encodeChecks_ok hc).1 rfl (Job.fresh_accords R _ _)
    (Nat.le_add_left _ _)

/-- Settles O47. -/
theorem engineStepStaysInItsRegion : Obligations.EngineStepStaysInItsRegion := by
  intro s J hJ moves
  refine ⟨s.engineStep J, by rw [step_of_job hJ, if_pos moves], fun a ha => s.read_engineStep_notInDest ha,
    fun r hlen hfmt hst => s.readReg_engineStep J hlen hfmt hst, ?_⟩
  cases h : J.lastStep with
  | true =>
    rw [State.engineStep_last h]
    exact ⟨rfl, rfl, .inr ⟨rfl, rfl, rfl, rfl⟩⟩
  | false =>
    obtain ⟨take, put, heq⟩ := State.engineStep_notLast h s
    rw [heq]
    exact ⟨rfl, rfl, .inl ⟨_, rfl, J.afterAccesses_params take put, rfl, rfl, rfl⟩⟩

end Sys2Proof.Machine
end

section
/-! SUPPORT. The statements about NOP and CLEAR while idle, settled (42_control.md). -/

namespace Sys2Proof.Machine

/-- With the last result and DROP cleared no field of STATUS is left set (R201). -/
theorem Status.clearDrop_clearResult (st : Status) : st.clearResult.clearDrop = Status.reset := rfl

/-- Settles O7: NOP is its acceptance and no more. -/
theorem nopRecordsItsWordOnly : Obligations.NopRecordsItsWordOnly := fun depth nch _ idle =>
  exec_nop_idle idle depth nch

/-- Settles O8: between them the acceptance and the command itself clear every field of STATUS. -/
theorem clearZeroesStatus : Obligations.ClearZeroesStatus := by
  intro depth nch s idle
  rw [exec_clear_idle idle, Status.clearDrop_clearResult]
  rfl

end Sys2Proof.Machine
end

section
/-! SUPPORT. The statements about an illegal word and about the idle machine at the end of a run, settled
(60_exceptions.md). -/

namespace Sys2Proof.Machine

/-- While idle a CMD write of an illegal word clears the last result and raises IllegalCommand (R103, R221). -/
theorem State.writeCmdReg_illegal_idle {s : State} {w : Word} {e : IllegalWord} (idle : s.busy = false)
    (illegal : decode w = .error e) :
    s.writeCmdReg w = .next ((s.accept w).clearResult.raise .illegalCommand) := by
  simp only [State.writeCmdReg, illegal, State.issueIllegal, State.issue_of_idle idle]

/-- With no operation left the host's move changes nothing (R271; log 17). -/
theorem State.hostStep_of_noProgram {s : State} (hp : s.program = []) : s.hostStep = .next s := by
  simp only [State.hostStep, hp]

/-- While idle there is no running job (R25, R41). -/
theorem State.job_of_idle {s : State} (idle : s.busy = false) : s.job = none :=
  Option.isNone_iff_eq_none.mp (Option.isSome_eq_false_iff.mp idle)

/-- Settles O19: the masks of the statement are those of the words that do not decode. -/
theorem illegalWordRaises : Obligations.IllegalWordRaises := by
  intro w s idle masks
  obtain ⟨e, illegal⟩ := (illegalWordsAreReservedOnes w).mpr masks
  exact State.writeCmdReg_illegal_idle idle illegal

/-- Settles O23: while idle it is the host's move, and the host has none left. -/
theorem finishedRunStandsStill : Obligations.FinishedRunStandsStill := by
  rintro s ⟨noProgram, idle⟩
  rw [step_of_idle (State.job_of_idle idle), State.hostStep_of_noProgram noProgram]

end Sys2Proof.Machine
end

section
/-! SUPPORT. What the reset input leaves in memory when it aborts a job (R261; log 7). -/

namespace Sys2Proof.Machine

/-- The reset input fills the destination of the job it aborts with unspecified bytes and writes no other byte (R261). -/
theorem State.resetInput_mem_of_job {s : State} {J : Job} (hJ : s.job = some J) :
    s.resetInput.mem = s.mem.writeAll J.params.dst.toNat (freeBytes s.draws J.params.len) := by
  simp only [State.resetInput, hJ]

theorem State.read_resetInput_notInDest {s : State} {J : Job} (hJ : s.job = some J) {a : Nat} (ha : ¬J.params.inDest a) :
    s.resetInput.mem.read a = s.mem.read a := by
  rw [State.resetInput_mem_of_job hJ]
  exact Memory.read_writeAll_notInDest (fun _ hw => mem_freeBytes hw) s.mem ha

end Sys2Proof.Machine
end

section
/-! SUPPORT. A host that WAITs on a running job: its reads of STATUS use up the burst, the engine's steps use up the job, and
the read after the last one ends the wait (R110, R269; log 3, 4, 21). -/

namespace Sys2Proof.Machine

/-- The job with one more host operation of its present burst (log 3). -/
def Job.countHostOp (J : Job) : Job := { J with prog := { J.prog with hostOps := J.prog.hostOps + 1 } }

theorem State.countHostOp_of_job {s : State} {J : Job} (hJ : s.job = some J) :
    s.countHostOp = { s with job := some J.countHostOp } := by
  rw [State.countHostOp, hJ]
  rfl

/-- The engine steps a job has to take before its last one (log 4). -/
def Job.stepsLeft (J : Job) : Nat := Config.jobSteps J.prog.draw - J.prog.steps

/-- The host operations that may still pass before the engine moves (log 3). -/
def Job.burstLeft (J : Job) : Nat := Config.hostBurst J.prog.draw J.prog.steps - J.prog.hostOps

/-- An engine step that is not the last brings a job nearer to its end. -/
theorem Job.stepsLeft_afterAccesses_lt {J : Job} (h : J.lastStep = false) (m : Memory) (take : Nat → Nat → Bool)
    (put : Nat → Bool) : (J.afterAccesses m take put).stepsLeft < J.stepsLeft := by
  have := of_decide_eq_false h
  simp only [Job.stepsLeft, Job.afterAccesses, Job.fetch_draw, Job.fetch_steps]
  omega

/-- A host operation of a burst that is not over brings the burst nearer to its end. -/
theorem Job.burstLeft_countHostOp_lt {s : State} {J : Job} (h : s.engineMoves J = false) :
    J.countHostOp.burstLeft < J.burstLeft := by
  have := of_decide_eq_false (Bool.or_eq_false_iff.mp h).2
  simp only [Job.burstLeft, Job.countHostOp]
  omega

/-- WAIT's read of STATUS matches exactly when the block is idle (R25, R112). -/
theorem State.status_matches_wait_iff (s : State) : s.readReg .status &&& 0x1 = 0x0 ↔ s.busy = false := by
  obtain ⟨busy, -⟩ := Status.word_flags s.busy s.status
  rw [show (0x1 : Word) = 1#32 from rfl, BitVec.and_one_eq_setWidth_ofBool_getLsbD, s.readReg_status, busy]
  cases s.busy <;> decide

/-- On an idle block WAIT is over in one step (R110). -/
theorem step_wait_of_idle {s : State} (hj : s.job = none) (hp : s.program = [expand .wait]) :
    step s = .next { s with program := [] } := by
  have idle : s.busy = false := by rw [State.busy, hj]; rfl
  obtain ⟨matched, -⟩ := pollRepeatsUntilMatch s .status 0x1 0x0 [] hj hp
  exact matched (s.status_matches_wait_iff.mpr idle)

/-- While a job runs the host's step of a WAIT is a read that does not match: only the burst's count changes (log 3, 21). -/
theorem step_wait_of_job {s : State} {J : Job} (hJ : s.job = some J) (hp : s.program = [expand .wait])
    (waits : s.engineMoves J = false) : step s = .next s.countHostOp := by
  have busy : s.countHostOp.busy = true := by rw [s.countHostOp_busy, State.busy, hJ]; rfl
  have missed : ¬s.countHostOp.readReg .status &&& 0x1 = 0x0 := by
    rw [State.status_matches_wait_iff, busy]
    decide
  have kept : { s.countHostOp with program := [expand .wait] } = s.countHostOp := by rw [← hp]; rfl
  have hp' : s.countHostOp.program = [expand .wait] := hp
  rw [step_of_job hJ, if_neg (Bool.eq_false_iff.mp waits), State.hostStep, hp']
  simp only [expand] at kept ⊢
  rw [execHostOp_poll, State.readReg_withProgram, if_neg missed, kept]

/-- Some run from the state ends with the host program and the job over and DONE set. -/
def State.EndsDone (s : State) : Prop := ∃ k t, core.run k s = .next t ∧ t.runOver ∧ t.status.done = true

theorem State.EndsDone.of_step {s t : State} (h : step s = .next t) (ht : t.EndsDone) : s.EndsDone := by
  obtain ⟨k, u, hrun, hover⟩ := ht
  exact ⟨k + 1, u, (core_run_succ h k).trans hrun, hover⟩

/-- A WAIT on an idle block with DONE set ends so. -/
theorem State.endsDone_wait_of_idle {s : State} (hj : s.job = none) (hp : s.program = [expand .wait])
    (done : s.status.done = true) : s.EndsDone := by
  have ended : { s with program := [] }.runOver := ⟨rfl, by rw [State.busy, hj]; rfl⟩
  exact .of_step (step_wait_of_idle hj hp) ⟨0, _, rfl, ended, done⟩

/-- A WAIT on a running job ends with DONE set: each step before the job's last brings the last one nearer, by the engine
steps left, then by the host operations left of the burst (R269). -/
theorem State.endsDone_wait_of_job {s : State} {J : Job} (hJ : s.job = some J) (hp : s.program = [expand .wait]) :
    s.EndsDone := by
  cases moves : s.engineMoves J with
  | false =>
    have counted : s.countHostOp.job = some J.countHostOp := by rw [State.countHostOp_of_job hJ]
    exact .of_step (step_wait_of_job hJ hp moves) (State.endsDone_wait_of_job counted hp)
  | true =>
    have engine : step s = .next (s.engineStep J) := by rw [step_of_job hJ, if_pos moves]
    refine .of_step engine ?_
    cases hl : J.lastStep with
    | true =>
      rw [State.engineStep_last hl]
      exact State.endsDone_wait_of_idle rfl hp rfl
    | false =>
      obtain ⟨take, put, heq⟩ := State.engineStep_notLast hl s
      rw [heq]
      exact State.endsDone_wait_of_job (s := s.afterTurn J take put) (J := J.afterAccesses s.mem take put) rfl hp
termination_by (J.stepsLeft, J.burstLeft)
decreasing_by
  · exact .right _ (Job.burstLeft_countHostOp_lt moves)
  · exact .left _ _ (Job.stepsLeft_afterAccesses_lt hl s.mem take put)

end Sys2Proof.Machine
end

section
/-! SUPPORT. The statements about a reset during a job and about waiting for one, settled (70_reset_and_hazards.md). -/

namespace Sys2Proof.Machine

/-- Settles O33: the reset input writes in the destination only, and a legal job's destination holds no source byte. -/
theorem resetDuringJobSparesOtherBytes : Obligations.ResetDuringJobSparesOtherBytes := by
  intro s t J hJ h
  obtain rfl : s.resetInput = t := Host.Outcome.next.inj h
  have spared : ∀ a, ¬J.params.inDest a → s.resetInput.mem.read a = s.mem.read a :=
    fun _ => State.read_resetInput_notInDest hJ
  exact ⟨spared, fun hR a ha => spared a fun hd => hR.not_inSource hd ha⟩

/-- Settles O49. -/
theorem waitAlwaysEnds : Obligations.WaitAlwaysEnds := fun _ _ hJ hp => State.endsDone_wait_of_job hJ hp

end Sys2Proof.Machine
end

section
/-! SUPPORT. What a stop of the platform names: a launch over absent memory or over the register window (R72, R82), a
register access that is not an aligned word (R21), a host access past the top of memory (R70). -/

namespace Sys2Proof.Machine

/-- What one region of a job meets, its destination or one of its sources meets: the shape of launchRefusal's tests. -/
theorem JobRecord.dst_or_source_of_region {R : JobRecord} {P : Nat → Nat → Prop} {a len : Nat}
    (region : (a, len) = (R.dst.toNat, R.len) ∨ ∃ b ∈ R.sources, (a, len) = (b, R.srcLen)) (h : P a len) :
    P R.dst.toNat R.len ∨ ∃ b ∈ R.sources, P b R.srcLen := by
  obtain hd | ⟨b, hb, hs⟩ := region
  · obtain ⟨rfl, rfl⟩ := Prod.mk.inj hd
    exact .inl h
  · obtain ⟨rfl, rfl⟩ := Prod.mk.inj hs
    exact .inr ⟨_, hb, h⟩

section launch
variable {p : Platform} {R : JobRecord} {a len : Nat}
  (region : (a, len) = (R.dst.toNat, R.len) ∨ ∃ b ∈ R.sources, (a, len) = (b, R.srcLen))
include region

/-- R72 with X12: the test for memory comes first, so nothing is asked of the window (log 8). -/
theorem launchRefusal_of_lacks (h : Lacks p a len) : launchRefusal p R = some .absentMemory :=
  if_pos (JobRecord.dst_or_source_of_region region h)

/-- R82 with X5, asked only of regions that all have memory (log 8). -/
theorem launchRefusal_of_windowMeets (h : WindowMeets p a len) (dstPresent : ¬Lacks p R.dst.toNat R.len)
    (srcPresent : ∀ b ∈ R.sources, ¬Lacks p b R.srcLen) : launchRefusal p R = some .windowInJob := by
  have present : ¬(Lacks p R.dst.toNat R.len ∨ ∃ b ∈ R.sources, Lacks p b R.srcLen) :=
    not_or.mpr ⟨dstPresent, fun ⟨b, hb, hs⟩ => srcPresent b hb hs⟩
  rw [launchRefusal, if_neg present, if_pos (JobRecord.dst_or_source_of_region region h)]

end launch

/-- The window holds a register at every multiple of 4, for word accesses alone (R21). -/
theorem regAccess_eq_none {size : AccessSize} {offset : BitVec 6} :
    regAccess size offset = none ↔ size ≠ .word ∨ offset.toNat % 4 ≠ 0 := by
  cases size with
  | word =>
    have inWindow := offset.isLt
    simp only [regAccess, ne_eq, not_true_eq_false, false_or]
    split
    -- None of the sixteen offsets of a register: in a window of 64 bytes, no multiple of 4.
    case h_17 =>
      simp only [imp_false, true_iff] at *
      omega
    all_goals simp [*]
  | byte | half | double => simp [regAccess]

/-- A host access past the top of memory faults, wherever its other ways lead (log 10). -/
theorem State.hostMem_pastTop {s : State} {a len : Nat} (w m : Host.Outcome State Fault Refusal)
    (h : 2 ^ 32 < a + len) : s.hostMem a len w m = .fault .noSuchAddress := if_pos h

end Sys2Proof.Machine
end

section
/-! SUPPORT. The statements about what the platform and the window refuse and where memory ends, settled
(93_implementation_defined.md X4, X5, X12; 20_memory.md). -/

namespace Sys2Proof.Machine

/-- Settles O14: the checks latch the record, and the launch of that record is refused. -/
theorem encodeRefusedOffTheMemory : Obligations.EncodeRefusedOffTheMemory := by
  intro depth nch d lay s a len idle hv hd hlay region
  have latched := State.encodeChecks_of_verdict_none hv hd hlay
  constructor
  · intro lacks
    exact exec_encode_of_checks_refused idle latched (launchRefusal_of_lacks region lacks)
  · intro meets dstPresent srcPresent
    exact exec_encode_of_checks_refused idle latched (launchRefusal_of_windowMeets region meets dstPresent srcPresent)

/-- Settles O26: such an access names no register, and each of the three operations asks for one first. -/
theorem oddWindowAccessIsRefused : Obligations.OddWindowAccessIsRefused := by
  intro s size offset v mask val t odd
  have noReg := regAccess_eq_none.mpr odd
  simp only [execHostOp, noReg, and_self]

/-- Settles O31. -/
theorem storePastTopOfMemoryFaults : Obligations.StorePastTopOfMemoryFaults :=
  fun _ _ _ past => State.hostMem_pastTop _ _ past

end Sys2Proof.Machine
end
